-- ==== Sys2Proof/Word.lean ====
section
/-! DEFINITION. The two IEEE 754 formats the block uses, as data that has exactly one value per bit pattern
(spec/00_scope.md R6). Registers that the spec treats as raw bits are bit vectors; numbers are these types. -/

namespace Sys2Proof

/-- An IEEE 754 binary64 datum (R6). `finite` holds the sign, the biased exponent 0 to 2046 and the 52 fraction bits;
`nan` holds the fraction less one (a NaN's fraction is never zero). Each of the 2^64 bit patterns is exactly one value. -/
inductive Binary64 where
  | finite (sign : Bool) (exp : Fin 2047) (frac : BitVec 52)
  | infinite (sign : Bool)
  | nan (sign : Bool) (payload : Fin 4503599627370495)
  deriving DecidableEq, Repr, Inhabited

/-- An IEEE 754 binary32 datum (R6), in the same form: biased exponent 0 to 254, 23 fraction bits. -/
inductive Binary32 where
  | finite (sign : Bool) (exp : Fin 255) (frac : BitVec 23)
  | infinite (sign : Bool)
  | nan (sign : Bool) (payload : Fin 8388607)
  deriving DecidableEq, Repr, Inhabited

/-- The four rounding operators of R8. -/
inductive Arith where
  | add | sub | mul | div
  deriving DecidableEq, Repr

end Sys2Proof
end

