-- ==== Sys2Proof/Config.lean ====
section
/-! DEFINITION. What an implementation fixes (spec/00_scope.md R5) and the values the spec leaves free. An opaque
constant has no body: nothing can evaluate it, so a claim about the model holds for every choice of it. -/

namespace Sys2Proof

/-- The parameters of R5 that are plain numbers. A machine carries its own in `State.params`, and no step changes them. -/
structure Params where
  /-- NUM_OSC, 1 to 256. -/
  numOsc : Nat
  /-- NUM_FLT, 1 to 256. -/
  numFlt : Nat
  /-- MAX_N, 1 to 2^32 - 1. -/
  maxN : Nat
  /-- SR_RESET, the reset value of SAMPLE_RATE. -/
  srReset : BitVec 32
  /-- BASE, the host byte address of the register window; OPEN in R5, a multiple of 64 (R72). -/
  base : Nat
  /-- SPEC_REV, reported in ID. -/
  specRev : BitVec 8
  deriving DecidableEq, Repr

/-- The values of R5's table. BASE is OPEN there: 0 here is a DESIGN CHOICE (log 1). -/
def Params.default : Params :=
  { numOsc := 6, numFlt := 2, maxN := 65536, srReset := 44100#32, base := 0, specRev := 7#8 }

/-- The legal ranges of R5 and R72. A sample rate of zero is no legal value of SAMPLE_RATE (R28). -/
abbrev Params.legal (p : Params) : Prop :=
  (1 ≤ p.numOsc ∧ p.numOsc ≤ 256) ∧ (1 ≤ p.numFlt ∧ p.numFlt ≤ 256) ∧ (1 ≤ p.maxN ∧ p.maxN ≤ 4294967295) ∧
    p.srReset ≠ 0#32 ∧ p.base % 64 = 0

/-- `sinF` of R5 and R12: a total function from binary64 to binary64, and nothing more is known of it (log 2). -/
opaque Config.sinF : Binary64 → Binary64

/-- `tanF` of R5 and R12, likewise (log 2). -/
opaque Config.tanF : Binary64 → Binary64

/-- Sign and payload of the NaN that an operator of R8 gives: R8 says NaN and not which one (log 3). -/
opaque Config.arithNaN : Arith → Binary64 → Binary64 → Bool × Fin 4503599627370495

/-- Sign and payload of `to32` of a NaN (R9 does not say which NaN; log 4). -/
opaque Config.narrowNaN : Binary64 → Bool × Fin 8388607

/-- Sign and payload of `from32` of a NaN (R9 does not say which NaN; log 4). -/
opaque Config.widenNaN : Binary32 → Bool × Fin 4503599627370495

/-- Contents of entry `i` of channel `c`'s table where nothing has written it: any value (R36, U3; log 5). -/
opaque Config.unwrittenEntry : Nat → Nat → Binary32

end Sys2Proof
end

