-- ==== Sys2Proof/Syntax.lean ====
section
/-! DEFINITION. The nine commands of spec/30_encoding.md R94, one constructor per row of the opcode table. -/

namespace Sys2Proof

/-- SEL of OSC_READ (R96). -/
inductive OscSel where
  | phase | n | coeff | config | table
  deriving DecidableEq, Repr

/-- SEL of FLT_READ (R96). -/
inductive FltSel where
  | z0 | z1 | z2 | z3 | z4 | k | amp | ah | bh | fc
  deriving DecidableEq, Repr

/-- A command. `ch` is the CH field (R92). `kind` is the KIND field, all eight values of it: 5 to 7 decode, and OSC_BUILD
raises CFG for them (R95). -/
inductive Instr where
  | oscBuild (ch : BitVec 8) (kind : BitVec 3) (interp defsize : Bool)
  | oscPlay (ch : BitVec 8)
  | oscRead (ch : BitVec 8) (sel : OscSel)
  | fltSetQ (ch : BitVec 8)
  | fltSetHpf (ch : BitVec 8)
  | fltSetFc (ch : BitVec 8)
  | fltReset (ch : BitVec 8)
  | fltRun (ch : BitVec 8)
  | fltRead (ch : BitVec 8) (sel : FltSel)
  deriving DecidableEq, Repr

/-- The two kinds of channel (R2). -/
inductive ChannelKind where
  | osc | flt
  deriving DecidableEq, Repr

/-- The kind of channel a command acts on (R94). -/
def Instr.unit : Instr → ChannelKind
  | .oscBuild .. => .osc
  | .oscPlay _ => .osc
  | .oscRead .. => .osc
  | .fltSetQ _ => .flt
  | .fltSetHpf _ => .flt
  | .fltSetFc _ => .flt
  | .fltReset _ => .flt
  | .fltRun _ => .flt
  | .fltRead .. => .flt

/-- The CH field (R91). -/
def Instr.ch : Instr → BitVec 8
  | .oscBuild ch .. => ch
  | .oscPlay ch => ch
  | .oscRead ch _ => ch
  | .fltSetQ ch => ch
  | .fltSetHpf ch => ch
  | .fltSetFc ch => ch
  | .fltReset ch => ch
  | .fltRun ch => ch
  | .fltRead ch _ => ch

end Sys2Proof
end

