-- ==== Sys2Proof/WellFormed.lean ====
section
/-! DEFINITION. The one check on a command that its syntax does not carry: the channel exists (spec/30_encoding.md R92). -/

namespace Sys2Proof

/-- How many channels of a kind a block with parameters `p` holds (R2). -/
def ChannelKind.count (p : Params) : ChannelKind → Nat
  | .osc => p.numOsc
  | .flt => p.numFlt

/-- CH < NUM_OSC for an oscillator command, CH < NUM_FLT for a filter command (R92). -/
abbrev Instr.wellFormed (p : Params) (i : Instr) : Prop :=
  i.ch.toNat < i.unit.count p

end Sys2Proof
end

