-- ==== Sys2Proof/Decode.lean ====
section
/-! DEFINITION. Decoding a CMD value and encoding a command (spec/30_encoding.md R90 to R98). The decoder is total and names
why it rejects; the block records ILLEGAL for every rejection (R98, R210). -/

namespace Sys2Proof

/-- Why a CMD value is no command (R210). All of them have the one effect of ILLEGAL, and their order cannot be observed (R98). -/
inductive DecodeReject where
  /-- v[63:32] is not zero (R90). -/
  | highWordSet
  /-- OP is not in the opcode map (R94). -/
  | unassignedOp
  /-- A reserved ARG bit is set (R93). -/
  | reservedArgBit
  /-- SEL is above 4 for OSC_READ or above 9 for FLT_READ (R96). -/
  | selOutOfRange
  /-- CH is not below the number of channels (R92). -/
  | channelOutOfRange
  deriving DecidableEq, Repr

/-- SEL of OSC_READ (R96): 0 PHASE, 1 N, 2 COEFF, 3 CONFIG, 4 TABLE entry. -/
def OscSel.ofSel : Nat → Option OscSel
  | 0 => some .phase
  | 1 => some .n
  | 2 => some .coeff
  | 3 => some .config
  | 4 => some .table
  | _ => none

/-- SEL of FLT_READ (R96): 0 to 4 Z[0] to Z[4], 5 K, 6 AMP, 7 AH, 8 BH, 9 FC. -/
def FltSel.ofSel : Nat → Option FltSel
  | 0 => some .z0
  | 1 => some .z1
  | 2 => some .z2
  | 3 => some .z3
  | 4 => some .z4
  | 5 => some .k
  | 6 => some .amp
  | 7 => some .ah
  | 8 => some .bh
  | 9 => some .fc
  | _ => none

/-- Layout B (R93): ARG[7:3] and ARG[15:10] are reserved. -/
def decodeBuild (ch : BitVec 8) (arg : BitVec 16) : Except DecodeReject Instr :=
  if arg.extractLsb' 3 5 = 0#5 ∧ arg.extractLsb' 10 6 = 0#6 then
    .ok (.oscBuild ch (arg.extractLsb' 0 3) (arg.getLsbD 8) (arg.getLsbD 9))
  else .error .reservedArgBit

/-- Layout Z (R93): all of ARG is reserved. -/
def decodeNoArg (i : Instr) (arg : BitVec 16) : Except DecodeReject Instr :=
  if arg = 0#16 then .ok i else .error .reservedArgBit

/-- Layout S (R93): ARG[15:4] is reserved, ARG[3:0] is SEL, read by `sel`. -/
def decodeSelect {σ : Type} (sel : Nat → Option σ) (make : σ → Instr) (arg : BitVec 16) : Except DecodeReject Instr :=
  if arg.extractLsb' 4 12 = 0#12 then
    match sel (arg.extractLsb' 0 4).toNat with
    | some x => .ok (make x)
    | none => .error .selOutOfRange
  else .error .reservedArgBit

/-- The opcode map (R94), on the fields of R91. -/
def decodeFields (op ch : BitVec 8) (arg : BitVec 16) : Except DecodeReject Instr :=
  match op.toNat with
  | 0x01 => decodeBuild ch arg
  | 0x02 => decodeNoArg (.oscPlay ch) arg
  | 0x03 => decodeSelect OscSel.ofSel (.oscRead ch) arg
  | 0x11 => decodeNoArg (.fltSetQ ch) arg
  | 0x12 => decodeNoArg (.fltSetHpf ch) arg
  | 0x13 => decodeNoArg (.fltSetFc ch) arg
  | 0x14 => decodeNoArg (.fltReset ch) arg
  | 0x15 => decodeNoArg (.fltRun ch) arg
  | 0x16 => decodeSelect FltSel.ofSel (.fltRead ch) arg
  | _ => .error .unassignedOp

/-- The decoder of R98: a 64-bit CMD value is one command, or is rejected by name. -/
def decode (p : Params) (v : BitVec 64) : Except DecodeReject Instr :=
  if v.extractLsb' 32 32 = 0#32 then
    match decodeFields (v.extractLsb' 24 8) (v.extractLsb' 16 8) (v.extractLsb' 0 16) with
    | .ok i => if i.wellFormed p then .ok i else .error .channelOutOfRange
    | .error e => .error e
  else .error .highWordSet

/-- SEL field of OSC_READ (R96). -/
def OscSel.field : OscSel → BitVec 4
  | .phase => 0#4
  | .n => 1#4
  | .coeff => 2#4
  | .config => 3#4
  | .table => 4#4

/-- SEL field of FLT_READ (R96). -/
def FltSel.field : FltSel → BitVec 4
  | .z0 => 0#4
  | .z1 => 1#4
  | .z2 => 2#4
  | .z3 => 3#4
  | .z4 => 4#4
  | .k => 5#4
  | .amp => 6#4
  | .ah => 7#4
  | .bh => 8#4
  | .fc => 9#4

/-- OP field (R94). -/
def Instr.op : Instr → BitVec 8
  | .oscBuild .. => 0x01#8
  | .oscPlay _ => 0x02#8
  | .oscRead .. => 0x03#8
  | .fltSetQ _ => 0x11#8
  | .fltSetHpf _ => 0x12#8
  | .fltSetFc _ => 0x13#8
  | .fltReset _ => 0x14#8
  | .fltRun _ => 0x15#8
  | .fltRead .. => 0x16#8

/-- ARG field (R93): layout B, Z or S. -/
def Instr.arg : Instr → BitVec 16
  | .oscBuild _ kind interp defsize => 0#6 ++ BitVec.ofBool defsize ++ BitVec.ofBool interp ++ 0#5 ++ kind
  | .oscPlay _ => 0#16
  | .oscRead _ sel => 0#12 ++ sel.field
  | .fltSetQ _ => 0#16
  | .fltSetHpf _ => 0#16
  | .fltSetFc _ => 0#16
  | .fltReset _ => 0#16
  | .fltRun _ => 0#16
  | .fltRead _ sel => 0#12 ++ sel.field

/-- The command word: OP in [31:24], CH in [23:16], ARG in [15:0] (R91). -/
def encode (i : Instr) : BitVec 32 :=
  i.op ++ i.ch ++ i.arg

/-- The 64-bit CMD value that carries a command word: bits [63:32] are zero (R90). -/
def cmdValue (w : BitVec 32) : BitVec 64 :=
  0#32 ++ w

/-- The CMD value that an opcode-table row's word stands for: the row's `nbits` bits of `w`, every bit above them zero. None if
that does not fit the 64 bits of CMD. -/
def tableWordValue (nbits w : Nat) : Option (BitVec 64) :=
  if w % 2 ^ nbits < 2 ^ 64 then some (BitVec.ofNat 64 (w % 2 ^ nbits)) else none

/-- What the decoder reads from an opcode-table row's word, in a block with the parameter values of R5. -/
def decodeTableWord (nbits w : Nat) : Option Instr :=
  match tableWordValue nbits w with
  | some v =>
    match decode .default v with
    | .ok i => some i
    | .error _ => none
  | none => none

end Sys2Proof
end

