-- ==== Sys2Proof/Machine/Arith.lean ====
section
/-! DEFINITION. IEEE 754 arithmetic of spec/00_scope.md R8 to R11. Every finite operand is taken to an exact integer multiple
of the format's smallest positive value, the operation is done exactly on integers, and one function rounds the exact
result to nearest, ties to even. -/

namespace Sys2Proof

/-! ### Magnitudes and rounding, for a format with `p` fraction bits

The magnitude code of a finite datum is its bit pattern without the sign: 2^p * exponent + fraction. Magnitudes are counted
in the format's smallest positive value. -/

/-- The magnitude that a code stands for: subnormal when the exponent is 0, else (2^p + fraction) * 2^(exponent - 1). -/
def codeValue (p code : Nat) : Nat :=
  if code / 2 ^ p = 0 then code % 2 ^ p else (2 ^ p + code % 2 ^ p) * 2 ^ (code / 2 ^ p - 1)

/-- The integer nearest to `num / den`, ties to even. -/
def roundHalfEven (num den : Nat) : Nat :=
  if 2 * (num % den) < den then num / den
  else if den < 2 * (num % den) then num / den + 1
  else num / den + num / den % 2

/-- The code of the magnitude nearest to `num / den`, ties to even (R8). `log2 (num / den) - p` is the power of two of one unit
in the last place. A code that reaches past the largest finite one says that the magnitude overflows. -/
def roundCode (p num den : Nat) : Nat :=
  2 ^ p * (Nat.log2 (num / den) - p) + roundHalfEven num (den * 2 ^ (Nat.log2 (num / den) - p))

/-! ### binary64 -/

/-- 1.0 in binary64's smallest positive value, 2^-1074. -/
@[irreducible] def unit64 : Nat := 2 ^ 1074

/-- The magnitude of infinity in comparisons: above every finite one, which stay below 2^2098. -/
@[irreducible] def infinity64 : Int := 2 ^ 2098

/-- The datum of a sign and a magnitude code; infinity where the exponent overflows (R8). -/
def Binary64.ofCode (sign : Bool) (code : Nat) : Binary64 :=
  if h : code / 2 ^ 52 < 2047 then .finite sign ⟨code / 2 ^ 52, h⟩ (BitVec.ofNat 52 code) else .infinite sign

/-- The datum nearest to the magnitude `num / den` with a sign (R8). -/
def Binary64.round (sign : Bool) (num den : Nat) : Binary64 :=
  .ofCode sign (roundCode 52 num den)

/-- The magnitude of the finite datum with these exponent and fraction fields. -/
def mag64 (exp : Fin 2047) (frac : BitVec 52) : Nat :=
  codeValue 52 (2 ^ 52 * exp.val + frac.toNat)

/-- A magnitude with its sign, as an exact integer. -/
def signed (sign : Bool) (m : Nat) : Int :=
  if sign then -(m : Int) else (m : Int)

/-- The bit pattern (R62: bit 63 is the sign). -/
def Binary64.toBits : Binary64 → BitVec 64
  | .finite s e f => BitVec.ofBool s ++ BitVec.ofNat 11 e.val ++ f
  | .infinite s => BitVec.ofBool s ++ 0x7FF#11 ++ 0#52
  | .nan s q => BitVec.ofBool s ++ 0x7FF#11 ++ BitVec.ofNat 52 (q.val + 1)

/-- The datum of a bit pattern. -/
def Binary64.ofBits (v : BitVec 64) : Binary64 :=
  let sign := v.getLsbD 63
  let frac := v.extractLsb' 0 52
  if he : (v.extractLsb' 52 11).toNat < 2047 then .finite sign ⟨(v.extractLsb' 52 11).toNat, he⟩ frac
  else if frac.toNat = 0 then .infinite sign
  else .nan sign ⟨frac.toNat - 1, by have := frac.isLt; omega⟩

/-- `isFinite` of R9. -/
def Binary64.isFinite : Binary64 → Bool
  | .finite .. => true
  | .infinite _ => false
  | .nan .. => false

/-- `isNaN`: the datum is a NaN. -/
def Binary64.isNaN : Binary64 → Bool
  | .finite .. => false
  | .infinite _ => false
  | .nan .. => true

/-- The sign bit. -/
def Binary64.sign : Binary64 → Bool
  | .finite s _ _ => s
  | .infinite s => s
  | .nan s _ => s

/-- `neg64` of R8: flips the sign bit, whatever the datum. -/
def Binary64.neg : Binary64 → Binary64
  | .finite s e f => .finite (!s) e f
  | .infinite s => .infinite (!s)
  | .nan s q => .nan (!s) q

/-- `abs64` of R8: clears the sign bit, whatever the datum. -/
def Binary64.abs : Binary64 → Binary64
  | .finite _ e f => .finite false e f
  | .infinite _ => .infinite false
  | .nan _ q => .nan false q

/-- The NaN that an invalid operation, or one on a NaN, gives: some NaN (R8; log 3). -/
def Binary64.someNaN (op : Arith) (a b : Binary64) : Binary64 :=
  .nan (Config.arithNaN op a b).1 (Config.arithNaN op a b).2

/-- The sign of an exact sum: that of the sum, and where it is zero, minus only if both operands are minus. -/
def sumSign (sa sb : Bool) (sum : Int) : Bool :=
  if sum = 0 then sa && sb else decide (sum < 0)

/-- A sum; `bad` where it is a NaN: on a NaN, and for infinities of opposite sign. -/
def Binary64.addOr (bad : Binary64) : Binary64 → Binary64 → Binary64
  | .finite sa ea fa, .finite sb eb fb =>
    .round (sumSign sa sb (signed sa (mag64 ea fa) + signed sb (mag64 eb fb)))
      (signed sa (mag64 ea fa) + signed sb (mag64 eb fb)).natAbs 1
  | .finite .., .infinite sb => .infinite sb
  | .infinite sa, .finite .. => .infinite sa
  | .infinite sa, .infinite sb => if sa = sb then .infinite sa else bad
  | .nan .., _ => bad
  | .finite .., .nan .. => bad
  | .infinite .., .nan .. => bad

/-- A product; `bad` where it is a NaN: on a NaN, and for zero times infinity. -/
def Binary64.mulOr (bad : Binary64) : Binary64 → Binary64 → Binary64
  | .finite sa ea fa, .finite sb eb fb => .round (sa != sb) (mag64 ea fa * mag64 eb fb) unit64
  | .finite sa ea fa, .infinite sb => if mag64 ea fa = 0 then bad else .infinite (sa != sb)
  | .infinite sa, .finite sb eb fb => if mag64 eb fb = 0 then bad else .infinite (sa != sb)
  | .infinite sa, .infinite sb => .infinite (sa != sb)
  | .nan .., _ => bad
  | .finite .., .nan .. => bad
  | .infinite .., .nan .. => bad

/-- A quotient; `bad` where it is a NaN: on a NaN, for zero by zero, for infinity by infinity. A nonzero number by zero is an
infinity with the sign of the quotient (R8). -/
def Binary64.divOr (bad : Binary64) : Binary64 → Binary64 → Binary64
  | .finite sa ea fa, .finite sb eb fb =>
    if mag64 eb fb = 0 then
      if mag64 ea fa = 0 then bad else .infinite (sa != sb)
    else .round (sa != sb) (unit64 * mag64 ea fa) (mag64 eb fb)
  | .finite sa _ _, .infinite sb => .finite (sa != sb) 0 0#52
  | .infinite sa, .finite sb _ _ => .infinite (sa != sb)
  | .infinite _, .infinite _ => bad
  | .nan .., _ => bad
  | .finite .., .nan .. => bad
  | .infinite .., .nan .. => bad

/-- `a +. b` of R8. -/
def Binary64.add (a b : Binary64) : Binary64 :=
  addOr (someNaN .add a b) a b

/-- `a -. b` of R8: the sum with the sign of `b` flipped. -/
def Binary64.sub (a b : Binary64) : Binary64 :=
  addOr (someNaN .sub a b) a b.neg

/-- `a *. b` of R8. -/
def Binary64.mul (a b : Binary64) : Binary64 :=
  mulOr (someNaN .mul a b) a b

/-- `a /. b` of R8. -/
def Binary64.div (a b : Binary64) : Binary64 :=
  divOr (someNaN .div a b) a b

/-- The place of a datum on the number line, in units of 2^-1074; none for a NaN. Both zeros have the place 0 (R10). -/
def Binary64.place : Binary64 → Option Int
  | .finite s e f => some (signed s (mag64 e f))
  | .infinite s => some (if s then -infinity64 else infinity64)
  | .nan .. => none

/-- `a < b` of R10: false on a NaN. -/
def Binary64.lt (a b : Binary64) : Bool :=
  match a.place, b.place with
  | some x, some y => decide (x < y)
  | some _, none => false
  | none, _ => false

/-- `a <= b` of R10: false on a NaN. -/
def Binary64.le (a b : Binary64) : Bool :=
  match a.place, b.place with
  | some x, some y => decide (x ≤ y)
  | some _, none => false
  | none, _ => false

/-- `a > b` of R10. -/
def Binary64.gt (a b : Binary64) : Bool := b.lt a

/-- `a >= b` of R10. -/
def Binary64.ge (a b : Binary64) : Bool := b.le a

/-- `a == b` of R10: false on a NaN, true for the two zeros. -/
def Binary64.eq (a b : Binary64) : Bool :=
  match a.place, b.place with
  | some x, some y => decide (x = y)
  | some _, none => false
  | none, _ => false

/-! ### Conversions (R9) -/

/-- `f64(n)`: the binary64 of an integer, exact for |n| <= 2^53, which is all the block converts (R9). -/
def Binary64.ofInt (n : Int) : Binary64 :=
  .round (decide (n < 0)) (unit64 * n.natAbs) 1

/-- `floorInt(p)`: the floor of a finite datum. R9 gives no floor of another, and none is asked for (log 10). -/
def Binary64.floorInt : Binary64 → Int
  | .finite s e f => signed s (mag64 e f) / (unit64 : Int)
  | .infinite _ => 0
  | .nan .. => 0

/-- `roundHalfUp(x)`: the nearest integer to a finite datum, a tie to the larger, computed exactly: the floor of x + 1/2 as an exact
number (R9; log 10 as for `floorInt`). -/
def Binary64.roundHalfUp : Binary64 → Int
  | .finite s e f => (2 * signed s (mag64 e f) + (unit64 : Int)) / (2 * (unit64 : Int))
  | .infinite _ => 0
  | .nan .. => 0

/-! ### binary32 -/

/-- binary32's smallest positive value, 2^-149, in binary64's, 2^-1074. -/
@[irreducible] def unit32 : Nat := 2 ^ 925

/-- The binary32 datum of a sign and a magnitude code; infinity where the exponent overflows. -/
def Binary32.ofCode (sign : Bool) (code : Nat) : Binary32 :=
  if h : code / 2 ^ 23 < 255 then .finite sign ⟨code / 2 ^ 23, h⟩ (BitVec.ofNat 23 code) else .infinite sign

/-- `to32(v)` of R9: to nearest, ties to even. Of a NaN, some NaN (log 4). -/
def Binary64.to32 : Binary64 → Binary32
  | .finite s e f => .ofCode s (roundCode 23 (mag64 e f) unit32)
  | .infinite s => .infinite s
  | .nan s q => .nan (Config.narrowNaN (.nan s q)).1 (Config.narrowNaN (.nan s q)).2

/-- `from32(w)` of R9: exact. Of a NaN, some NaN (log 4). -/
def Binary32.from32 : Binary32 → Binary64
  | .finite s e f => .round s (unit32 * codeValue 23 (2 ^ 23 * e.val + f.toNat)) 1
  | .infinite s => .infinite s
  | .nan s q => .nan (Config.widenNaN (.nan s q)).1 (Config.widenNaN (.nan s q)).2

/-- The sign flip of R132 on a table entry. -/
def Binary32.neg : Binary32 → Binary32
  | .finite s e f => .finite (!s) e f
  | .infinite s => .infinite (!s)
  | .nan s q => .nan (!s) q

/-- The bit pattern of a table entry (bit 31 is the sign). -/
def Binary32.toBits : Binary32 → BitVec 32
  | .finite s e f => BitVec.ofBool s ++ BitVec.ofNat 8 e.val ++ f
  | .infinite s => BitVec.ofBool s ++ 0xFF#8 ++ 0#23
  | .nan s q => BitVec.ofBool s ++ 0xFF#8 ++ BitVec.ofNat 23 (q.val + 1)

/-! ### Constants (R8: a decimal literal is the nearest binary64; R11) -/

/-- `+0.0`. -/
def Binary64.zero : Binary64 := .finite false 0 0#52
/-- `1.0`. -/
def Binary64.one : Binary64 := .ofBits 0x3FF0000000000000#64
/-- `2.0`. -/
def Binary64.two : Binary64 := .ofBits 0x4000000000000000#64
/-- `3.0`. -/
def Binary64.three : Binary64 := .ofBits 0x4008000000000000#64
/-- `4.0`. -/
def Binary64.four : Binary64 := .ofBits 0x4010000000000000#64
/-- `17.0`. -/
def Binary64.seventeen : Binary64 := .ofBits 0x4031000000000000#64
/-- `20.0`. -/
def Binary64.twenty : Binary64 := .ofBits 0x4034000000000000#64
/-- `0.5`. -/
def Binary64.half : Binary64 := .ofBits 0x3FE0000000000000#64
/-- `0.25`. -/
def Binary64.quarter : Binary64 := .ofBits 0x3FD0000000000000#64
/-- `0.02`, `0x3F947AE147AE147B` (41_filter.md R162). -/
def Binary64.fcMin : Binary64 := .ofBits 0x3F947AE147AE147B#64
/-- `0.999`, `0x3FEFF7CED916872B` (41_filter.md R162). -/
def Binary64.fcMax : Binary64 := .ofBits 0x3FEFF7CED916872B#64
/-- `PI64` of R11. -/
def Binary64.pi : Binary64 := .ofBits 0x400921FB54442D18#64
/-- `TWO_PI64 = 2 *. PI64` of R11. -/
def Binary64.twoPi : Binary64 := Binary64.two.mul Binary64.pi

/-- `1.0` as a table entry. -/
def Binary32.one : Binary32 := .finite false 127 0#23
/-- `-1.0` as a table entry. -/
def Binary32.negOne : Binary32 := .finite true 127 0#23

end Sys2Proof
end

