-- ==== Sys2Proof/Machine/State.lean ====
section
/-! DEFINITION. Every piece of state spec/10_state.md gives the block (R20 to R41), the two fields of the model's own that carry
the host's side of the bus, and the state after reset (spec/70_reset_and_hazards.md R250, R251). -/

namespace Sys2Proof.Machine

/-- A waveform kind as KIND[c] holds it (R31): 0 sine, 1 sawtooth, 2 ramp, 3 triangle, 4 square. -/
inductive Waveform where
  | sine | saw | ramp | triangle | square
  deriving DecidableEq, Repr

/-- The table memory of one oscillator channel (R36, spec/20_memory.md R61 (b), R73): index and entry of every entry that has
been written, in one canonical form (`Memory.wf`, in Machine/Ops.lean). An index not listed has never been written. -/
abbrev Memory := List (Nat × Binary32)

/-- One oscillator channel (R30 to R36). -/
structure OscChannel where
  /-- BUILT[c] (R30). -/
  built : Bool
  /-- KIND[c] (R31). -/
  kind : Waveform
  /-- INTERP[c] (R32). -/
  interp : Bool
  /-- N[c] (R33). -/
  n : Nat
  /-- COEFF[c] (R34). -/
  coeff : Binary64
  /-- PHASE[c] (R35). -/
  phase : Binary64
  /-- TABLE[c] (R36). -/
  table : Memory
  deriving DecidableEq, Repr

/-- The five state registers Z[f][0..4] of a filter channel (R37). -/
structure Ladder where
  z0 : Binary64
  z1 : Binary64
  z2 : Binary64
  z3 : Binary64
  z4 : Binary64
  deriving DecidableEq, Repr

/-- One filter channel (R37 to R41). -/
structure FltChannel where
  /-- Z[f][0..4] (R37). -/
  z : Ladder
  /-- K[f] (R38). -/
  k : Binary64
  /-- AMP[f] (R39). -/
  amp : Binary64
  /-- AH[f] (R40). -/
  ah : Binary64
  /-- BH[f] (R40). -/
  bh : Binary64
  /-- FC[f] (R41). -/
  fc : Binary64
  deriving DecidableEq, Repr

/-- What reaches the block from outside (spec/20_memory.md R60, R63, R64; spec/70_reset_and_hazards.md R250): an access of any
size at any host address, or the reset input. The value of a write whose size is not 8 is never looked at. -/
inductive BusEvent where
  | read (addr size : Nat)
  | write (addr size : Nat) (value : BitVec 64)
  | reset
  deriving DecidableEq, Repr

/-- The error causes of spec/60_exceptions.md R213. -/
inductive Cause where
  | illegal | cfg | unbuilt | range | nonfinite | bus
  deriving DecidableEq, Repr

/-- The state of the block. -/
structure State where
  /-- The implementation parameters (spec/00_scope.md R5); no step changes them. ID is computed from them (R22). -/
  params : Params
  /-- OPERAND (R23). -/
  operand : BitVec 64
  /-- CMD (R24). -/
  cmd : BitVec 64
  /-- RESULT (R25). -/
  result : BitVec 64
  /-- STATUS (R26). -/
  status : BitVec 64
  /-- ERRINFO (R27). -/
  errinfo : BitVec 64
  /-- SAMPLE_RATE[31:0]; bits [63:32] read as 0 (R28). -/
  sampleRate : BitVec 32
  /-- The oscillator channels, channel 0 first; `params.numOsc` of them (R20 (b)). -/
  oscs : List OscChannel
  /-- The filter channels, channel 0 first; `params.numFlt` of them (R20 (c)). -/
  flts : List FltChannel
  /-- The model's own: the accesses the host is still to make and the resets still to come, oldest first (R66; log 6). -/
  pending : List BusEvent
  /-- The model's own: what the last access returned to the host, none if it was no read (R63, R64; log 7). -/
  readData : Option (BitVec 64)
  deriving DecidableEq, Repr

/-- Why a step could stop with a fault. There is no such reason: the block has no trap, and an error is recorded in STATUS and
ERRINFO while the block goes on (spec/60_exceptions.md R214, R215, R218; log 11). -/
inductive Fault where
  deriving DecidableEq, Repr

/-- Why a step could be refused. -/
inductive Refusal where
  /-- Raised only by an arm of `exec` whose command has no meaning yet; there is none. Safe: the machine stops. -/
  | notModelled (mnemonic : String)
  deriving DecidableEq, Repr

/-- Every ladder register at `+0.0`. -/
def Ladder.zero : Ladder := ⟨.zero, .zero, .zero, .zero, .zero⟩

/-- An oscillator channel after reset (R30 to R36): unbuilt, no entry of its table written. -/
def OscChannel.reset : OscChannel :=
  { built := false, kind := .sine, interp := false, n := 0, coeff := .zero, phase := .zero, table := [] }

/-- A filter channel after reset (R37 to R41). -/
def FltChannel.reset : FltChannel :=
  { z := .zero
    k := .zero
    amp := .ofBits 0x3FF0000000000000#64
    ah := .ofBits 0xBFBEC550F5B2E782#64
    bh := .ofBits 0x3FE1EC550F5B2E78#64
    fc := .ofBits 0x3FD0000000000000#64 }

/-- The state after reset of a block with parameters `p` (R250, R251), with nothing pending. -/
def State.resetWith (p : Params) : State :=
  { params := p
    operand := 0#64
    cmd := 0#64
    result := 0#64
    status := 0#64
    errinfo := 0#64
    sampleRate := p.srReset
    oscs := List.replicate p.numOsc .reset
    flts := List.replicate p.numFlt .reset
    pending := []
    readData := none }

/-- The state after reset, with the parameter values of R5. -/
def State.reset : State :=
  .resetWith .default

end Sys2Proof.Machine
end

