-- ==== Sys2Proof/Machine/Flags.lean ====
section
/-! DEFINITION. STATUS and ERRINFO as values: what recording an error makes of them and what a write to STATUS clears
(spec/10_state.md R26, R27; spec/60_exceptions.md R213, R214). These sticky bits are the block's only flags (R42). -/

namespace Sys2Proof.Machine

/-- The cause code, 1 to 6 (R213). -/
def Cause.code : Cause → Nat
  | .illegal => 1
  | .cfg => 2
  | .unbuilt => 3
  | .range => 4
  | .nonfinite => 5
  | .bus => 6

/-- The STATUS bit `code - 1` of a cause (R213), as a mask. -/
def Cause.mask (c : Cause) : BitVec 64 :=
  BitVec.twoPow 64 (c.code - 1)

/-- The six STATUS bits that hold a cause, [5:0] (R26). -/
def statusBits : BitVec 64 := 0x3F#64

/-- The ERRINFO word of an error (R27, R214): INFO [31:0], CAUSE [39:32], REGACC [40], WRITE [41], zero above. -/
def errinfoWord (c : Cause) (info : BitVec 32) (regacc write : Bool) : BitVec 64 :=
  0#22 ++ BitVec.ofBool write ++ BitVec.ofBool regacc ++ BitVec.ofNat 8 c.code ++ info

/-- STATUS after an error of cause `c` is recorded (R214). -/
def statusAfterError (c : Cause) (status : BitVec 64) : BitVec 64 :=
  status ||| c.mask

/-- ERRINFO after an error with ERRINFO word `word` is recorded: only the first error since STATUS[5:0] was zero is kept (R214). -/
def errinfoAfterError (word status errinfo : BitVec 64) : BitVec 64 :=
  if status.extractLsb' 0 6 = 0#6 then word else errinfo

/-- STATUS after a host write of `v`: a 1 in [5:0] clears its bit, every other bit of `v` is ignored (R26). -/
def statusAfterClear (v status : BitVec 64) : BitVec 64 :=
  status &&& ~~~(v &&& statusBits)

end Sys2Proof.Machine
end

