-- ==== Sys2Proof/Machine/Operands.lean ====
section
/-! DEFINITION. What a command reads its operands from (spec/30_encoding.md R97): OPERAND as a binary64 or as an unsigned
integer, SAMPLE_RATE as an integer, and the command word for error reports. -/

namespace Sys2Proof.Machine

/-- OPERAND as a binary64, bit for bit (R97 (a)). -/
def State.operandF64 (s : State) : Binary64 :=
  .ofBits s.operand

/-- OPERAND as an unsigned 64-bit integer (R97 (b)). -/
def State.operandNat (s : State) : Nat :=
  s.operand.toNat

/-- SAMPLE_RATE[31:0] as an unsigned integer (spec/40_oscillator.md R137). -/
def State.rate (s : State) : Nat :=
  s.sampleRate.toNat

/-- The table size of OSC_BUILD: SAMPLE_RATE when DEFSIZE is 1, else OPERAND (R137). -/
def State.buildSize (s : State) (defsize : Bool) : Nat :=
  if defsize then s.rate else s.operandNat

/-- The command word that is executing: the low half of CMD, where the write that started it is stored (R66, R90, R214). -/
def State.commandWord (s : State) : BitVec 32 :=
  s.cmd.extractLsb' 0 32

/-- The waveform of a KIND field, none for 5, 6 and 7 (R95). -/
def Waveform.ofKind (kind : BitVec 3) : Option Waveform :=
  match kind.toNat with
  | 0 => some .sine
  | 1 => some .saw
  | 2 => some .ramp
  | 3 => some .triangle
  | 4 => some .square
  | _ => none

/-- The three bits of KIND[c] (R31). -/
def Waveform.bits : Waveform → BitVec 3
  | .sine => 0#3
  | .saw => 1#3
  | .ramp => 2#3
  | .triangle => 3#3
  | .square => 4#3

end Sys2Proof.Machine
end

