-- ==== Sys2Proof/Machine/Ops.lean ====
section
/-! DEFINITION. The operations the commands and accesses share: reading and writing channels, table memory
(spec/20_memory.md R73), recording an error (spec/60_exceptions.md R214, R215) and ending a command with a result. -/

namespace Sys2Proof.Machine

/-! ### Registers and channels -/

/-- RESULT <- v. -/
def State.setResult (s : State) (v : BitVec 64) : State := { s with result := v }
/-- CMD <- v. -/
def State.setCmd (s : State) (v : BitVec 64) : State := { s with cmd := v }
/-- OPERAND <- v. -/
def State.setOperand (s : State) (v : BitVec 64) : State := { s with operand := v }
/-- SAMPLE_RATE <- v. -/
def State.setRate (s : State) (v : BitVec 32) : State := { s with sampleRate := v }
/-- STATUS <- v. -/
def State.setStatus (s : State) (v : BitVec 64) : State := { s with status := v }
/-- ERRINFO <- v. -/
def State.setErrinfo (s : State) (v : BitVec 64) : State := { s with errinfo := v }
/-- What the current access returns to the host. -/
def State.setReadData (s : State) (v : Option (BitVec 64)) : State := { s with readData := v }
/-- What the host still has to do. -/
def State.setPending (s : State) (es : List BusEvent) : State := { s with pending := es }

/-- Oscillator channel `c`. A channel the block does not hold reads as a reset one; no command asks for it (log 10). -/
def State.osc (s : State) (c : Nat) : OscChannel := s.oscs[c]?.getD .reset
/-- Filter channel `f`, likewise. -/
def State.flt (s : State) (f : Nat) : FltChannel := s.flts[f]?.getD .reset
/-- Writes oscillator channel `c`. -/
def State.setOsc (s : State) (c : Nat) (o : OscChannel) : State := { s with oscs := s.oscs.set c o }
/-- Writes filter channel `f`. -/
def State.setFlt (s : State) (f : Nat) (x : FltChannel) : State := { s with flts := s.flts.set f x }

/-! ### Table memory -/

/-- The canonical form of a table memory: indexes strictly rising. An unlisted index has no value at all, so no entry can be
equal to what an unlisted one reads as. -/
def Memory.wf : Memory → Bool
  | [] => true
  | [_] => true
  | (i, _) :: (j, w) :: rest => decide (i < j) && Memory.wf ((j, w) :: rest)

/-- The entry written at index `i`, none where nothing has written it. -/
def Memory.read : Memory → Nat → Option Binary32
  | [], _ => none
  | (j, w) :: rest, i => if j = i then some w else Memory.read rest i

/-- Writes `w` at index `i`, in its place in the order. -/
def Memory.write : Memory → Nat → Binary32 → Memory
  | [], i, w => [(i, w)]
  | (j, v) :: rest, i, w =>
    if i < j then (i, w) :: (j, v) :: rest
    else if i = j then (i, w) :: rest
    else (j, v) :: Memory.write rest i w

/-- `TableWrite` of entries 0 to k - 1 of one channel, from the last to the first: R136 allows any order (log 12). -/
def Memory.fill (entry : Nat → Binary32) : Nat → Memory → Memory
  | 0, m => m
  | k + 1, m => Memory.fill entry k (m.write k (entry k))

/-- `TableRead(c, i)` (R73). Where nothing has written the entry it is any value (R36; log 5). -/
def State.tableRead (s : State) (c i : Nat) : Binary32 :=
  ((s.osc c).table.read i).getD (Config.unwrittenEntry c i)

/-! ### Errors -/

/-- `record Err(cause, info, regacc, write)` (R214). -/
def State.recordError (s : State) (c : Cause) (info : BitVec 32) (regacc write : Bool) : State :=
  (s.setErrinfo (errinfoAfterError (errinfoWord c info regacc write) s.status s.errinfo)).setStatus
    (statusAfterError c s.status)

/-- `record Err(cause)` of a command rule: INFO is the command word (R214). -/
def State.recordCommandError (s : State) (c : Cause) : State :=
  s.recordError c s.commandWord false false

/-- `raise Err(cause)` of a command rule (R215): the error is recorded, RESULT becomes 0, the command ends, and nothing else
changes. This is all that taking an exception is on this block: there is no trap and nothing to return from (R218, R219). -/
def State.raiseError (s : State) (c : Cause) : State :=
  (s.recordCommandError c).setResult 0#64

/-- How the host acknowledges errors: a STATUS write clears the bits written as 1 (R26, R219). -/
def State.acknowledge (s : State) (v : BitVec 64) : State :=
  s.setStatus (statusAfterClear v s.status)

/-! ### Commands -/

/-- Ends a command with a binary64 in RESULT (R25). -/
def State.finishF64 (s : State) (v : Binary64) : State := s.setResult v.toBits

/-- Ends a command with an unsigned integer in RESULT (R25). -/
def State.finishNat (s : State) (v : Nat) : State := s.setResult (BitVec.ofNat 64 v)

/-- Ends a command that has no result (R25). -/
def State.finish (s : State) : State := s.setResult 0#64

/-- A command on oscillator channel `ch`: ILLEGAL where the block has no such channel (R92; log 10), else what `act` does. -/
def State.onOsc (s : State) (ch : BitVec 8) (act : State → Nat → OscChannel → State) : State :=
  if ch.toNat < s.params.numOsc then act s ch.toNat (s.osc ch.toNat) else s.raiseError .illegal

/-- A command on filter channel `ch`, likewise. -/
def State.onFlt (s : State) (ch : BitVec 8) (act : State → Nat → FltChannel → State) : State :=
  if ch.toNat < s.params.numFlt then act s ch.toNat (s.flt ch.toNat) else s.raiseError .illegal

/-! ### Addresses and bytes of the register window -/

/-- The registers of the window (R22 to R28). -/
inductive Reg where
  | id | operand | cmd | result | status | errinfo | sampleRate
  deriving DecidableEq, Repr

/-- The register a legal access addresses (R63): 8 bytes at one of the seven offsets, all of them multiples of 8. None for every
illegal access (R64), offset 0x38 among them (R29). -/
def regAt (off size : Nat) : Option Reg :=
  if size = 8 then
    match off with
    | 0x00 => some .id
    | 0x08 => some .operand
    | 0x10 => some .cmd
    | 0x18 => some .result
    | 0x20 => some .status
    | 0x28 => some .errinfo
    | 0x30 => some .sampleRate
    | _ => none
  else none

/-- ID (R22): MAX_N in [63:32], zero in [31:24], NUM_FLT - 1 in [23:16], NUM_OSC - 1 in [15:8], SPEC_REV in [7:0]. -/
def idWord (p : Params) : BitVec 64 :=
  BitVec.ofNat 32 p.maxN ++ 0#8 ++ BitVec.ofNat 8 (p.numFlt - 1) ++ BitVec.ofNat 8 (p.numOsc - 1) ++ p.specRev

/-- The 64-bit value of a register (R22 to R28). -/
def State.regValue (s : State) : Reg → BitVec 64
  | .id => idWord s.params
  | .operand => s.operand
  | .cmd => s.cmd
  | .result => s.result
  | .status => s.status
  | .errinfo => s.errinfo
  | .sampleRate => 0#32 ++ s.sampleRate

/-- The offset of a host address in the window, none for an address outside BASE to BASE + 63 (R61, R72). -/
def windowOffset (p : Params) (addr : Nat) : Option Nat :=
  if p.base ≤ addr ∧ addr < p.base + 64 then some (addr - p.base) else none

/-- Byte `k` of a 64-bit value in little-endian order: bits [8k+7:8k] (R62). -/
def byteOf (v : BitVec 64) (k : Nat) : BitVec 8 :=
  v.extractLsb' (8 * k) 8

/-- The 64-bit value of bytes at rising addresses, little-endian (R62); bytes past the eighth fall away. -/
def ofBytes : List (BitVec 8) → BitVec 64
  | [] => 0#64
  | b :: rest => (ofBytes rest <<< 8) ||| b.setWidth 64

/-- The byte at a host address of the window (R62); none where no register stands. -/
def State.windowByte (s : State) (addr : Nat) : Option (BitVec 8) :=
  match windowOffset s.params addr with
  | some off =>
    match regAt (off / 8 * 8) 8 with
    | some r => some (byteOf (s.regValue r) (off % 8))
    | none => none
  | none => none

/-- The host access that writes these bytes at `addr` and up. -/
def BusEvent.writeBytes (addr : Nat) (bytes : List (BitVec 8)) : BusEvent :=
  .write addr bytes.length (ofBytes bytes)

/-- The host is to make one more access, after those it is already to make (R66). -/
def State.issue (s : State) (e : BusEvent) : State :=
  s.setPending (s.pending ++ [e])

end Sys2Proof.Machine
end

