-- ==== Sys2Proof/Machine/Filter.lean ====
section
/-! DEFINITION. The filter commands of spec/41_filter.md. Products and sums are written in the order R8 evaluates them:
to the left, each operator rounding its own result. -/

namespace Sys2Proof.Machine

open Sys2Proof

/-- The clipping nonlinearity v /. (1 +. abs64(v)) (R161). -/
def clip (v : Binary64) : Binary64 :=
  v.div (Binary64.one.add v.abs)

/-- The cutoff clamp (R162); a NaN goes to 0.02. -/
def clampFc (v : Binary64) : Binary64 :=
  if v.ge .fcMin && v.le .fcMax then v
  else if v.gt .fcMax then .fcMax
  else .fcMin

/-! ### Parameter commands -/

/-- FLT_SET_Q (R166): K = 20 q, AMP = 1 + 0.5 K. -/
def execFltSetQ (ch : BitVec 8) (s : State) : Host.Outcome State Fault Refusal :=
  .next (s.onFlt ch fun s f x =>
    let k := Binary64.twenty.mul s.operandF64
    (s.setFlt f { x with k := k, amp := Binary64.one.add (Binary64.half.mul k) }).finish)

/-- FLT_SET_HPF (R167): with Kh = h pi, AH = (Kh - 2) / (Kh + 2) and BH = 2 / (Kh + 2). -/
def execFltSetHpf (ch : BitVec 8) (s : State) : Host.Outcome State Fault Refusal :=
  .next (s.onFlt ch fun s f x =>
    let kh := s.operandF64.mul .pi
    (s.setFlt f { x with ah := (kh.sub .two).div (kh.add .two), bh := Binary64.two.div (kh.add .two) }).finish)

/-- FLT_SET_FC (R168): the clamp of the square. -/
def execFltSetFc (ch : BitVec 8) (s : State) : Host.Outcome State Fault Refusal :=
  .next (s.onFlt ch fun s f x =>
    (s.setFlt f { x with fc := clampFc (s.operandF64.mul s.operandF64) }).finish)

/-- FLT_RESET (R169): Z is cleared only where K < 17, which a NaN K is not. -/
def execFltReset (ch : BitVec 8) (s : State) : Host.Outcome State Fault Refusal :=
  .next (s.onFlt ch fun s f x =>
    if x.k.lt .seventeen then (s.setFlt f { x with z := .zero }).finish else s.finish)

/-! ### FLT_RUN -/

/-- The coefficients of one run (R163). -/
structure Coeffs where
  a : Binary64
  ainv : Binary64
  a2 : Binary64
  b : Binary64
  b2 : Binary64
  c : Binary64
  g0 : Binary64
  g : Binary64
  deriving DecidableEq, Repr

/-- `a` of R163: 2 tanF((PI64 FC) 0.5). -/
def prewarp (fc : Binary64) : Binary64 :=
  Binary64.two.mul (Config.tanF ((Binary64.pi.mul fc).mul .half))

/-- The normalization `c` of R163: 1 / (((2 a2) a2 - (4 a2) b2) + b2 b2). -/
def normalization (a2 b2 : Binary64) : Binary64 :=
  Binary64.one.div
    ((((Binary64.two.mul a2).mul a2).sub ((Binary64.four.mul a2).mul b2)).add (b2.mul b2))

/-- The coefficients that follow from the prewarped `a` and from BH (R163). -/
def coeffsOf (a bh : Binary64) : Coeffs :=
  let a2 := a.mul a
  let b := (Binary64.two.mul a).add .one
  let b2 := b.mul b
  let c := normalization a2 b2
  let g0 := ((Binary64.two.mul a2).mul a2).mul c
  { a := a, ainv := Binary64.one.div a, a2 := a2, b := b, b2 := b2, c := c, g0 := g0, g := g0.mul bh }

/-- `coeffs(f)` (R163), computed anew on every run (R160). -/
def FltChannel.coeffs (x : FltChannel) : Coeffs :=
  coeffsOf (prewarp x.fc) x.bh

/-- `s0` of R172. -/
def FltChannel.s0 (x : FltChannel) (q : Coeffs) : Binary64 :=
  let t0 := (q.a2.mul q.a).mul x.z.z0
  let t1 := (q.a2.mul q.b).mul x.z.z1
  let t2 := (x.z.z2.mul (q.b2.sub (Binary64.two.mul q.a2))).mul q.a
  let t3 := (x.z.z3.mul (q.b2.sub (Binary64.three.mul q.a2))).mul q.b
  (((t0.add t1).add t2).add t3).mul q.c

/-- `s` of R172. -/
def FltChannel.s (x : FltChannel) (q : Coeffs) : Binary64 :=
  (x.bh.mul (x.s0 q)).sub x.z.z4

/-- The feedback solve's first `y5` (R173): (g x + s) / (1 + g K). -/
def FltChannel.feedback (x : FltChannel) (q : Coeffs) (input : Binary64) : Binary64 :=
  ((q.g.mul input).add (x.s q)).div (Binary64.one.add (q.g.mul x.k))

/-- `y0` of R173. -/
def FltChannel.y0 (x : FltChannel) (q : Coeffs) (input : Binary64) : Binary64 :=
  clip (input.sub (x.k.mul (x.feedback q input)))

/-- What one run computes: the candidate state of R175 and the output of R178. -/
structure RunOutcome where
  z : Ladder
  out : Binary64
  deriving DecidableEq, Repr

/-- Steps 3 to 7 from the clipped input on: `y5` recomputed (R173), the cascade (R174), the candidate state (R175), the output
(R178). -/
def FltChannel.settle (x : FltChannel) (q : Coeffs) (y0 : Binary64) : RunOutcome :=
  let y5 := (q.g.mul y0).add (x.s q)
  let y4 := (q.g0.mul y0).add (x.s0 q)
  let y3 := ((q.b.mul y4).sub x.z.z3).mul q.ainv
  let y2 := (((q.b.mul y3).sub (q.a.mul y4)).sub x.z.z2).mul q.ainv
  let y1 := (((q.b.mul y2).sub (q.a.mul y3)).sub x.z.z1).mul q.ainv
  let twoA := Binary64.two.mul q.a
  { z :=
      { z0 := x.z.z0.add ((Binary64.four.mul q.a).mul ((y0.sub y1).add y2))
        z1 := x.z.z1.add (twoA.mul ((y1.sub (Binary64.two.mul y2)).add y3))
        z2 := x.z.z2.add (twoA.mul ((y2.sub (Binary64.two.mul y3)).add y4))
        z3 := x.z.z3.add (twoA.mul (y3.sub (Binary64.two.mul y4)))
        z4 := (x.bh.mul y4).add (x.ah.mul y5) }
    out := x.amp.mul y4 }

/-- One run on the input sample (R171): coefficients, state terms, solve, cascade, update, output. -/
def FltChannel.run (x : FltChannel) (input : Binary64) : RunOutcome :=
  x.settle x.coeffs (x.y0 x.coeffs input)

/-- All five registers finite. -/
def Ladder.isFinite (z : Ladder) : Bool :=
  z.z0.isFinite && z.z1.isFinite && z.z2.isFinite && z.z3.isFinite && z.z4.isFinite

/-- The test of R176 and R177. -/
def RunOutcome.isFinite (r : RunOutcome) : Bool :=
  r.out.isFinite && r.z.isFinite

/-- FLT_RUN (R171): a finite outcome is committed (R176); another clears Z, gives silence and records NONFINITE (R177). -/
def execFltRun (ch : BitVec 8) (s : State) : Host.Outcome State Fault Refusal :=
  .next (s.onFlt ch fun s f x =>
    let r := x.run s.operandF64
    if r.isFinite then (s.setFlt f { x with z := r.z }).finishF64 r.out
    else ((s.setFlt f { x with z := .zero }).recordCommandError .nonfinite).finishF64 .zero)

/-! ### FLT_READ -/

/-- The element FLT_READ returns (R180). -/
def FltChannel.element (x : FltChannel) : FltSel → Binary64
  | .z0 => x.z.z0
  | .z1 => x.z.z1
  | .z2 => x.z.z2
  | .z3 => x.z.z3
  | .z4 => x.z.z4
  | .k => x.k
  | .amp => x.amp
  | .ah => x.ah
  | .bh => x.bh
  | .fc => x.fc

/-- FLT_READ (R180). -/
def execFltRead (ch : BitVec 8) (sel : FltSel) (s : State) : Host.Outcome State Fault Refusal :=
  .next (s.onFlt ch fun s _ x => s.finishF64 (x.element sel))

end Sys2Proof.Machine
end

