-- ==== Sys2Proof/Machine/Oscillator.lean ====
section
/-! DEFINITION. The oscillator commands of spec/40_oscillator.md. -/

namespace Sys2Proof.Machine

open Sys2Proof

/-! ### Table formulas (R130 to R134), evaluated in binary64 and stored in binary32 (R121) -/

/-- Sine (R130). -/
def sineEntry (i n : Nat) : Binary32 :=
  (Config.sinF ((Binary64.twoPi.mul (.ofInt i)).div (.ofInt n))).to32

/-- Sawtooth (R131): x = i/N, 2 (x - roundHalfUp x). -/
def sawEntry (i n : Nat) : Binary32 :=
  let x := (Binary64.ofInt i).div (.ofInt n)
  (Binary64.two.mul (x.sub (.ofInt x.roundHalfUp))).to32

/-- Ramp (R132): the sawtooth with every sign flipped, zero included. -/
def rampEntry (i n : Nat) : Binary32 :=
  (sawEntry i n).neg

/-- Triangle (R133): x = i/N - 0.25, 1 - 4 |roundHalfUp x - x|. -/
def triangleEntry (i n : Nat) : Binary32 :=
  let x := ((Binary64.ofInt i).div (.ofInt n)).sub .quarter
  (Binary64.one.sub (Binary64.four.mul ((Binary64.ofInt x.roundHalfUp).sub x).abs)).to32

/-- Square (R134): an integer comparison. -/
def squareEntry (i n : Nat) : Binary32 :=
  if 2 * i < n then .one else .negOne

/-- `entry(KIND, i, N)` (R121). -/
def tableEntry (w : Waveform) (i n : Nat) : Binary32 :=
  match w with
  | .sine => sineEntry i n
  | .saw => sawEntry i n
  | .ramp => rampEntry i n
  | .triangle => triangleEntry i n
  | .square => squareEntry i n

/-! ### OSC_BUILD -/

/-- `sizeCoefficient`, f64(N) /. f64(SAMPLE_RATE) (R34, R137). -/
def buildCoeff (n rate : Nat) : Binary64 :=
  (Binary64.ofInt n).div (.ofInt rate)

/-- A channel once OSC_BUILD has built it (R137): the table filled (R136), PHASE at `+0.0`. -/
def OscChannel.build (o : OscChannel) (w : Waveform) (interp : Bool) (n rate : Nat) : OscChannel :=
  { built := true, kind := w, interp := interp, n := n, coeff := buildCoeff n rate, phase := .zero,
    table := Memory.fill (fun i => tableEntry w i n) n o.table }

/-- OSC_BUILD (R137): built before, unknown kind, size out of range, in that order, raise CFG; else the channel is built. -/
def execOscBuild (ch : BitVec 8) (kind : BitVec 3) (interp defsize : Bool) (s : State) : Host.Outcome State Fault Refusal :=
  .next (s.onOsc ch fun s c o =>
    if o.built then s.raiseError .cfg
    else
      match Waveform.ofKind kind with
      | none => s.raiseError .cfg
      | some w =>
        if s.buildSize defsize = 0 ∨ s.params.maxN < s.buildSize defsize then s.raiseError .cfg
        else (s.setOsc c (o.build w interp (s.buildSize defsize) s.rate)).finish)

/-! ### OSC_PLAY -/

/-- The phase with N subtracted once where it is at or past N (R140). -/
def wrapOnce (n p : Binary64) : Binary64 :=
  if p.ge n then p.sub n else p

/-- `advance(c, freq)` (R140). -/
def OscChannel.advance (o : OscChannel) (freq : Binary64) : Binary64 :=
  wrapOnce (.ofInt o.n) (o.phase.add (freq.mul o.coeff))

/-- The acceptance test of R140 and R141: 0.0 <= p < f64(N). A NaN fails it. -/
def OscChannel.accepts (o : OscChannel) (p : Binary64) : Bool :=
  p.ge .zero && p.lt (.ofInt o.n)

/-- The integer part of an accepted phase (R141). -/
def phaseIndex (p : Binary64) : Nat :=
  p.floorInt.toNat

/-- `interp(c, p, idx, curr)` (R143). -/
def interpolate (s : State) (c : Nat) (o : OscChannel) (p : Binary64) (idx : Nat) (curr : Binary64) : Binary64 :=
  curr.add ((((s.tableRead c ((idx + 1) % o.n)).from32).sub curr).mul (p.sub (.ofInt idx)))

/-- The sample OSC_PLAY gives at phase `p` (R141, R142, R143). -/
def playSample (s : State) (c : Nat) (o : OscChannel) (p : Binary64) : Binary64 :=
  let curr := (s.tableRead c (phaseIndex p)).from32
  if o.interp then interpolate s c o p (phaseIndex p) curr else curr

/-- OSC_PLAY (R141). -/
def execOscPlay (ch : BitVec 8) (s : State) : Host.Outcome State Fault Refusal :=
  .next (s.onOsc ch fun s c o =>
    if o.built then
      if o.accepts (o.advance s.operandF64) then
        (s.setOsc c { o with phase := o.advance s.operandF64 }).finishF64 (playSample s c o (o.advance s.operandF64))
      else s.raiseError .range
    else s.raiseError .unbuilt)

/-! ### OSC_READ -/

/-- The CONFIG word of R145: BUILT at bit 16, INTERP at bit 8, KIND in [2:0]. -/
def OscChannel.config (o : OscChannel) : BitVec 64 :=
  0#47 ++ BitVec.ofBool o.built ++ 0#7 ++ BitVec.ofBool o.interp ++ 0#5 ++ o.kind.bits

/-- OSC_READ (R145): CONFIG is allowed on an unbuilt channel, the rest is not. -/
def execOscRead (ch : BitVec 8) (sel : OscSel) (s : State) : Host.Outcome State Fault Refusal :=
  .next (s.onOsc ch fun s c o =>
    match sel with
    | .config => s.setResult o.config
    | .phase => if o.built then s.finishF64 o.phase else s.raiseError .unbuilt
    | .n => if o.built then s.finishNat o.n else s.raiseError .unbuilt
    | .coeff => if o.built then s.finishF64 o.coeff else s.raiseError .unbuilt
    | .table =>
      if o.built then
        if s.operandNat < o.n then s.finishF64 (s.tableRead c s.operandNat).from32 else s.raiseError .range
      else s.raiseError .unbuilt)

end Sys2Proof.Machine
end

