-- ==== Sys2Proof/Machine/Dispatch.lean ====
section
/-! DEFINITION. One arm per command (spec/30_encoding.md R94). -/

namespace Sys2Proof.Machine

def exec (i : Instr) (s : State) : Host.Outcome State Fault Refusal :=
  match i with
  | .oscBuild ch kind interp defsize => Sys2Proof.Machine.execOscBuild ch kind interp defsize s
  | .oscPlay ch => Sys2Proof.Machine.execOscPlay ch s
  | .oscRead ch sel => Sys2Proof.Machine.execOscRead ch sel s
  | .fltSetQ ch => Sys2Proof.Machine.execFltSetQ ch s
  | .fltSetHpf ch => Sys2Proof.Machine.execFltSetHpf ch s
  | .fltSetFc ch => Sys2Proof.Machine.execFltSetFc ch s
  | .fltReset ch => Sys2Proof.Machine.execFltReset ch s
  | .fltRun ch => Sys2Proof.Machine.execFltRun ch s
  | .fltRead ch sel => Sys2Proof.Machine.execFltRead ch sel s

end Sys2Proof.Machine
end

