-- ==== Sys2Proof/Machine/Access.lean ====
section
/-! DEFINITION. The host's side: reads and writes of the register window (spec/20_memory.md R63 to R66), the command a CMD write
executes, and the reset input (spec/70_reset_and_hazards.md R250). -/

namespace Sys2Proof.Machine

open Sys2Proof

/-- An illegal access records BUS with INFO = its offset, REGACC = 1 and its direction (R64, R212). -/
def State.busError (s : State) (off : Nat) (write : Bool) : State :=
  s.recordError .bus (BitVec.ofNat 32 off) true write

/-- A host read (R63, R64, R65): a legal one returns the register and changes nothing; an illegal one returns 0 and records BUS. -/
def hostRead (off size : Nat) (s : State) : State :=
  match regAt off size with
  | some r => s.setReadData (some (s.regValue r))
  | none => (s.busError off false).setReadData (some 0#64)

/-- A SAMPLE_RATE write (R28): refused with CFG where bits [63:32] are set or the rate is 0 (R212). -/
def writeSampleRate (v : BitVec 64) (s : State) : State :=
  if v.extractLsb' 32 32 = 0#32 ∧ v.extractLsb' 0 32 ≠ 0#32 then s.setRate (v.extractLsb' 0 32)
  else s.recordError .cfg 0x30#32 true true

/-- A CMD write (R24, R66): stores the value, then executes it as a command; a value that decodes to none raises ILLEGAL (R98). -/
def runCommand (v : BitVec 64) (s : State) : Host.Outcome State Fault Refusal :=
  match decode s.params v with
  | .ok i => exec i (s.setCmd v)
  | .error _ => .next ((s.setCmd v).raiseError .illegal)

/-- A host write (R63, R64, R65). -/
def hostWrite (off size : Nat) (v : BitVec 64) (s : State) : Host.Outcome State Fault Refusal :=
  match regAt off size with
  | some .operand => .next (s.setOperand v)
  | some .cmd => runCommand v s
  | some .status => .next (s.acknowledge v)
  | some .sampleRate => .next (writeSampleRate v s)
  | some .id => .next (s.busError off true)
  | some .result => .next (s.busError off true)
  | some .errinfo => .next (s.busError off true)
  | none => .next (s.busError off true)

/-- The reset input (R250, R251): every element of state at its reset value. The parameters are no state element, and the host
still has its accesses to make. -/
def State.afterReset (s : State) : State :=
  (State.resetWith s.params).setPending s.pending

/-- One event, already taken off `pending`. An access outside the window does not reach the block (R72; log 8). -/
def perform (e : BusEvent) (s : State) : Host.Outcome State Fault Refusal :=
  match e with
  | .reset => .next s.afterReset
  | .read addr size =>
    match windowOffset s.params addr with
    | some off => .next (hostRead off size s)
    | none => .next s
  | .write addr size v =>
    match windowOffset s.params addr with
    | some off => hostWrite off size v s
    | none => .next s

/-- The write of a 64-bit value to CMD by its host address (R24, R61). -/
def BusEvent.writeCmd (p : Params) (v : BitVec 64) : BusEvent :=
  .write (p.base + 0x10) 8 v

end Sys2Proof.Machine
end

