-- ==== Sys2Proof/Machine/Step.lean ====
section
/-! DEFINITION. One step: the oldest event still to come is performed, whole, before the next (spec/20_memory.md R66). With
none to come the block waits, and nothing changes (R60, spec/70_reset_and_hazards.md R252). -/

namespace Sys2Proof.Machine

open Sys2Proof

def step (s : State) : Host.Outcome State Fault Refusal :=
  match s.pending with
  | [] => .next s
  | e :: rest => perform e ((s.setPending rest).setReadData none)

/-- The state in which the host's very next access writes this opcode-table word to CMD (log 9). A word that does not fit the 64 bits
of CMD cannot be written, and nothing is placed. -/
def State.withFetchWord (s : State) (nbits w : Nat) : State :=
  match tableWordValue nbits w with
  | some v => s.setPending (BusEvent.writeCmd s.params v :: s.pending)
  | none => s

end Sys2Proof.Machine
end

