-- ==== Sys2Proof/Safety.lean ====
section
/-! DEFINITION. The terms the statements use: the invariant of the block, what an error leaves (written out on the fields, after
spec/60_exceptions.md, not after the model's own operations), and what rounding to nearest means. -/

namespace Sys2Proof.Machine

open Sys2Proof

/-! ### The invariant -/

/-- An oscillator channel of a block with parameters `p` (R33, R35, R36, R120): unbuilt and at its reset values, or built with
1 <= N <= MAX_N, +0.0 <= PHASE < f64(N) with a clear sign bit, a finite COEFF and every entry below N written; its table in
canonical form, with no entry at MAX_N or above. -/
abbrev OscChannel.sound (p : Params) (o : OscChannel) : Prop :=
  (o.built = false → o = .reset) ∧ (o.table.wf = true ∧ ∀ i, p.maxN ≤ i → o.table.read i = none) ∧
    (o.built = true → (1 ≤ o.n ∧ o.n ≤ p.maxN) ∧ o.phase.ge .zero = true ∧ o.phase.lt (.ofInt o.n) = true ∧
      o.phase.sign = false ∧ o.coeff.isFinite = true ∧ ∀ i < o.n, (o.table.read i).isSome = true)

/-- A filter channel (R37, R41): Z finite, 0.02 <= FC <= 0.999. -/
abbrev FltChannel.sound (x : FltChannel) : Prop :=
  x.z.isFinite = true ∧ x.fc.ge .fcMin = true ∧ x.fc.le .fcMax = true

/-- STATUS and ERRINFO (R26, R27, R213): the reserved bits are 0, CAUSE is at most 6, and it is not 0 while a STATUS bit is set. -/
abbrev ErrorRegistersSound (status errinfo : BitVec 64) : Prop :=
  status.extractLsb' 6 58 = 0#58 ∧ errinfo.extractLsb' 42 22 = 0#22 ∧ (errinfo.extractLsb' 32 8).toNat ≤ 6 ∧
    (status ≠ 0#64 → (errinfo.extractLsb' 32 8).toNat ≠ 0)

/-- The invariant of the block: legal parameters, as many channels as they say, each of them sound, a sample rate that is not
zero (R28), sound error registers. -/
abbrev State.Inv (s : State) : Prop :=
  s.params.legal ∧ s.oscs.length = s.params.numOsc ∧ s.flts.length = s.params.numFlt ∧ s.sampleRate ≠ 0#32 ∧
    ErrorRegistersSound s.status s.errinfo ∧ (∀ o ∈ s.oscs, o.sound s.params) ∧ (∀ x ∈ s.flts, x.sound)

/-! ### Errors, after R214 and R215 -/

/-- The ERRINFO word of R214: {write} << 41 OR {regacc} << 40 OR cause << 32 OR info. -/
def errorWord (code : Nat) (info : BitVec 32) (regacc write : Bool) : BitVec 64 :=
  ((BitVec.ofBool write).setWidth 64 <<< 41) ||| ((BitVec.ofBool regacc).setWidth 64 <<< 40) |||
    (BitVec.ofNat 64 code <<< 32) ||| info.setWidth 64

/-- ERRINFO once an error is recorded: written only where STATUS[5:0] is zero (R214). -/
def errinfoOnce (status errinfo word : BitVec 64) : BitVec 64 :=
  if status &&& 0x3F#64 = 0#64 then word else errinfo

/-- The state after `record Err(code, info, regacc, write)` (R214): STATUS and ERRINFO, nothing else. -/
def recorded (code : Nat) (info : BitVec 32) (regacc write : Bool) (s : State) : State :=
  { s with
    status := s.status ||| (1#64 <<< (code - 1))
    errinfo := errinfoOnce s.status s.errinfo (errorWord code info regacc write) }

/-- The state after `raise Err(code)` of a command (R215): recorded with the command word, RESULT 0, nothing else. -/
def raised (code : Nat) (s : State) : State :=
  { recorded code (s.cmd.setWidth 32) false false s with result := 0#64 }

/-! ### Illegal command values, after R210 -/

/-- The CMD values that R210 makes ILLEGAL: v[63:32] not zero; OP unassigned; a reserved ARG bit set; SEL out of range; CH out of
range for the kind of channel. -/
abbrev IllegalCommandValue (p : Params) (v : BitVec 64) : Prop :=
  let op := (v.extractLsb' 24 8).toNat
  let ch := (v.extractLsb' 16 8).toNat
  v.extractLsb' 32 32 ≠ 0#32 ∨
  ¬(op = 0x01 ∨ op = 0x02 ∨ op = 0x03 ∨ (0x11 ≤ op ∧ op ≤ 0x16)) ∨
  (op = 0x01 ∧ (v.extractLsb' 3 5 ≠ 0#5 ∨ v.extractLsb' 10 6 ≠ 0#6)) ∨
  ((op = 0x02 ∨ (0x11 ≤ op ∧ op ≤ 0x15)) ∧ v.extractLsb' 0 16 ≠ 0#16) ∨
  (op = 0x03 ∧ (v.extractLsb' 4 12 ≠ 0#12 ∨ 4 < (v.extractLsb' 0 4).toNat)) ∨
  (op = 0x16 ∧ (v.extractLsb' 4 12 ≠ 0#12 ∨ 9 < (v.extractLsb' 0 4).toNat)) ∨
  ((op = 0x01 ∨ op = 0x02 ∨ op = 0x03) ∧ p.numOsc ≤ ch) ∨
  ((0x11 ≤ op ∧ op ≤ 0x16) ∧ p.numFlt ≤ ch)

/-! ### Rounding -/

/-- Half a unit in the last place above the largest finite binary64, in units of 2^-1074: from here on rounding to nearest gives
infinity (R8). -/
@[irreducible] def overflow64 : Int := (2 ^ 54 - 1) * 2 ^ 2044

/-- `r` is the binary64 nearest to the exact value `num / den` (in units of 2^-1074), ties to even, if it is finite (R8). -/
def NearestEven (num : Int) (den : Nat) (r : Binary64) : Prop :=
  ∀ sr er fr, r = .finite sr er fr → ∀ sx ex fx,
    |num - den * signed sr (mag64 er fr)| ≤ |num - den * signed sx (mag64 ex fx)| ∧
      (|num - den * signed sr (mag64 er fr)| = |num - den * signed sx (mag64 ex fx)| →
        signed sx (mag64 ex fx) = signed sr (mag64 er fr) ∨ fr.toNat % 2 = 0)

/-- `r` is the exact value `num / den` rounded to binary64 as R8 says: never a NaN, with the sign `neg`, finite exactly where the value
is short of the overflow point, and then the nearest. -/
def RoundedTo (neg : Bool) (num : Int) (den : Nat) (r : Binary64) : Prop :=
  r.isNaN = false ∧ r.sign = neg ∧ (r.isFinite = true ↔ |num| < den * overflow64) ∧ NearestEven num den r

/-- The magnitude of the finite binary32 datum with these fields, in units of binary64's 2^-1074. -/
def mag32 (exp : Fin 255) (frac : BitVec 23) : Nat :=
  unit32 * codeValue 23 (2 ^ 23 * exp.val + frac.toNat)

/-- Half a unit in the last place above the largest finite binary32, (2^25 - 1) * 2^103, in units of 2^-1074: from here on rounding to
nearest gives infinity (R9). -/
@[irreducible] def overflow32 : Int := (2 ^ 25 - 1) * 2 ^ 1177

/-- `r` is the exact value `v` (in units of 2^-1074) rounded to binary32 as R9 says: with the sign `neg`, infinite exactly from the
overflow point on, and below it the nearest datum, even where two are equally near. -/
def RoundedTo32 (neg : Bool) (v : Int) (r : Binary32) : Prop :=
  (overflow32 ≤ |v| → r = .infinite neg) ∧
  (|v| < overflow32 → ∃ er fr, r = .finite neg er fr ∧ ∀ sx ex fx,
    |v - signed neg (mag32 er fr)| ≤ |v - signed sx (mag32 ex fx)| ∧
      (|v - signed neg (mag32 er fr)| = |v - signed sx (mag32 ex fx)| →
        signed sx (mag32 ex fx) = signed neg (mag32 er fr) ∨ fr.toNat % 2 = 0))

end Sys2Proof.Machine
end

