-- ==== Sys2Proof/Certificates/Slice0/Obligations.lean ====
section
/-! DEFINITION. The statements about the block, after the numbered rules of spec/. -/

open Sys2Proof Sys2Proof.Machine

/-! ### Numbers: spec/00_scope.md R8 to R11 -/

/-- R8, R9: the one rounding function of the model gives, for every format and every nonnegative exact value, the code of the nearest
magnitude, and where two are equally near the even one. -/
def Obligations.RoundingIsNearestTiesToEven : Prop :=
  ∀ p num den c : Nat, 1 ≤ p → 0 < den →
    |(num : Int) - den * codeValue p (roundCode p num den)| ≤ |(num : Int) - den * codeValue p c| ∧
      (|(num : Int) - den * codeValue p (roundCode p num den)| = |(num : Int) - den * codeValue p c| →
        c = roundCode p num den ∨ roundCode p num den % 2 = 0)

/-- R8: on finite operands each of the four operators gives its exact result rounded to nearest, ties to even, infinity past the
overflow point, with the sign of the exact result; an exact sum or difference of zero is +0 unless both terms are minus, and a
product or quotient has the sign of its operands' signs even where it is zero. The quotient is by a nonzero divisor. -/
def Obligations.OperatorsRoundTheExactResult : Prop :=
  ∀ (sa : Bool) (ea : Fin 2047) (fa : BitVec 52) (sb : Bool) (eb : Fin 2047) (fb : BitVec 52),
    let a := signed sa (mag64 ea fa)
    let b := signed sb (mag64 eb fb)
    RoundedTo (if a + b = 0 then sa && sb else decide (a + b < 0)) (a + b) 1 ((Binary64.finite sa ea fa).add (.finite sb eb fb)) ∧
    RoundedTo (if a - b = 0 then sa && !sb else decide (a - b < 0)) (a - b) 1 ((Binary64.finite sa ea fa).sub (.finite sb eb fb)) ∧
    RoundedTo (sa != sb) (a * b) unit64 ((Binary64.finite sa ea fa).mul (.finite sb eb fb)) ∧
    (mag64 eb fb ≠ 0 →
      RoundedTo (sa != sb) (a * signed sb unit64) (mag64 eb fb) ((Binary64.finite sa ea fa).div (.finite sb eb fb)))

/-- R8: what the operators give on operands that have no exact result. A NaN operand gives a NaN; infinity minus infinity, zero times
infinity, zero by zero and infinity by infinity give a NaN; a nonzero finite number by zero gives an infinity with the sign of
the quotient. Otherwise an infinite term gives itself in a sum, and likewise in a difference; an infinity times a nonzero number
or an infinity, and an infinity by a finite number, give an infinity, and a finite number by an infinity a zero, each with the
sign of the product or quotient. -/
def Obligations.SpecialOperandsOfTheOperators : Prop :=
  (∀ (op : Binary64 → Binary64 → Binary64), op = Binary64.add ∨ op = Binary64.sub ∨ op = Binary64.mul ∨ op = Binary64.div →
    ∀ a b : Binary64, a.isNaN = true ∨ b.isNaN = true → (op a b).isNaN = true) ∧
  (∀ s : Bool, ((Binary64.infinite s).add (.infinite !s)).isNaN = true ∧ ((Binary64.infinite s).sub (.infinite s)).isNaN = true) ∧
  (∀ (s t : Bool) (e : Fin 2047) (f : BitVec 52),
    (mag64 e f = 0 → ((Binary64.finite s e f).mul (.infinite t)).isNaN = true ∧
      ((Binary64.infinite t).mul (.finite s e f)).isNaN = true ∧
      ∀ u e' f', mag64 e' f' = 0 → ((Binary64.finite s e f).div (.finite u e' f')).isNaN = true) ∧
    (mag64 e f ≠ 0 → ∀ e' f', mag64 e' f' = 0 → (Binary64.finite s e f).div (.finite t e' f') = .infinite (s != t))) ∧
  (∀ s t : Bool, ((Binary64.infinite s).div (.infinite t)).isNaN = true ∧
    (Binary64.infinite s).mul (.infinite t) = .infinite (s != t)) ∧
  (∀ s : Bool, (Binary64.infinite s).add (.infinite s) = .infinite s ∧ (Binary64.infinite s).sub (.infinite !s) = .infinite s) ∧
  ∀ (s t : Bool) (e : Fin 2047) (f : BitVec 52),
    (Binary64.infinite s).add (.finite t e f) = .infinite s ∧ (Binary64.finite t e f).add (.infinite s) = .infinite s ∧
    (Binary64.infinite s).sub (.finite t e f) = .infinite s ∧ (Binary64.finite t e f).sub (.infinite s) = .infinite !s ∧
    (mag64 e f ≠ 0 → (Binary64.infinite s).mul (.finite t e f) = .infinite (s != t) ∧
      (Binary64.finite t e f).mul (.infinite s) = .infinite (t != s)) ∧
    (Binary64.infinite s).div (.finite t e f) = .infinite (s != t) ∧
    (Binary64.finite t e f).div (.infinite s) = .finite (t != s) 0 0#52

/-- R62, R97 (a): a binary64 and its 64-bit pattern determine each other, NaNs included. Bit 63 of the pattern is the sign, bits
[62:52] are the exponent and [51:0] the fraction; infinities and NaNs have the exponent 2047. -/
def Obligations.BitPatternsAndDataCorrespond : Prop :=
  (∀ v : BitVec 64, (Binary64.ofBits v).toBits = v) ∧ (∀ x : Binary64, Binary64.ofBits x.toBits = x) ∧
  (∀ x : Binary64, x.toBits.getLsbD 63 = x.sign) ∧
  (∀ (s : Bool) (e : Fin 2047) (f : BitVec 52), ((Binary64.finite s e f).toBits.extractLsb' 52 11).toNat = e.val ∧
    (Binary64.finite s e f).toBits.extractLsb' 0 52 = f) ∧
  (∀ s : Bool, (Binary64.infinite s).toBits.extractLsb' 0 63 = 0x7FF0000000000000#63) ∧
  ∀ x : Binary64, x.isNaN = true → x.toBits.extractLsb' 52 11 = 0x7FF#11 ∧ x.toBits.extractLsb' 0 52 ≠ 0#52

/-- R9: `f64(n)` is exact for |n| <= 2^53. -/
def Obligations.IntegersConvertExactly : Prop :=
  ∀ n : Int, |n| ≤ 2 ^ 53 → (Binary64.ofInt n).place = some (n * unit64)

/-- R9: `from32` is exact, and `to32` of the widened datum is the datum it came from. -/
def Obligations.WideningIsExactAndUndone : Prop :=
  ∀ (s : Bool) (e : Fin 255) (f : BitVec 23),
    (Binary32.finite s e f).from32.place = some (signed s (unit32 * codeValue 23 (2 ^ 23 * e.val + f.toNat))) ∧
      (Binary32.finite s e f).from32.to32 = .finite s e f

/-- R9: `floorInt` is the floor of a finite datum, and `roundHalfUp` the nearest integer with a tie taken to the larger. -/
def Obligations.IntegerPartsOfFiniteData : Prop :=
  ∀ (s : Bool) (e : Fin 2047) (f : BitVec 52),
    ((Binary64.finite s e f).floorInt * unit64 ≤ signed s (mag64 e f) ∧
      signed s (mag64 e f) < ((Binary64.finite s e f).floorInt + 1) * unit64) ∧
    (2 * ((Binary64.finite s e f).roundHalfUp * unit64) ≤ 2 * signed s (mag64 e f) + unit64 ∧
      2 * signed s (mag64 e f) < 2 * ((Binary64.finite s e f).roundHalfUp * unit64) + unit64)

/-! ### Encoding: spec/30_encoding.md R90 to R99 -/

/-- R90 to R98: every command that is well-formed in a block decodes, from its own CMD value, to itself. -/
def Obligations.DecodeInvertsEncode : Prop :=
  ∀ (p : Params) (i : Instr), i.wellFormed p → decode p (cmdValue (encode i)) = .ok i

/-- R98: a CMD value that decodes is the encoding of the command it decodes to, and that command is well-formed: no reserved
encoding falls through to a command. -/
def Obligations.DecodeAcceptsOnlyEncodings : Prop :=
  ∀ (p : Params) (v : BitVec 64) (i : Instr), decode p v = .ok i → v = cmdValue (encode i) ∧ i.wellFormed p

/-- R94, R100: words written out from the opcode map decode to the commands they stand for, with the parameter values of R5. -/
def Obligations.WordsOfTheOpcodeMapDecode : Prop :=
  decode .default 0x01000101#64 = .ok (.oscBuild 0 1 true false) ∧
  decode .default 0x01050204#64 = .ok (.oscBuild 5 4 false true) ∧
  decode .default 0x02010000#64 = .ok (.oscPlay 1) ∧
  decode .default 0x03000004#64 = .ok (.oscRead 0 .table) ∧
  decode .default 0x11010000#64 = .ok (.fltSetQ 1) ∧
  decode .default 0x12000000#64 = .ok (.fltSetHpf 0) ∧
  decode .default 0x13000000#64 = .ok (.fltSetFc 0) ∧
  decode .default 0x14010000#64 = .ok (.fltReset 1) ∧
  decode .default 0x15000000#64 = .ok (.fltRun 0) ∧
  decode .default 0x16000009#64 = .ok (.fltRead 0 .fc)

/-- R98, R210: the decoder rejects exactly the CMD values that R210 makes ILLEGAL; every other value is a command. -/
def Obligations.RejectedCommandValues : Prop :=
  ∀ (p : Params) (v : BitVec 64), (∃ e, decode p v = .error e) ↔ IllegalCommandValue p v

/-! ### Steps and register accesses: spec/20_memory.md, spec/10_state.md R22 to R29, spec/60_exceptions.md

The host's list of accesses to come (`pending`) and what the last access returned (`readData`) are fields of the model's own (logs 6
and 7): what the statements below say of these two is the model's form, not a rule's. -/

/-- R24, R66: a step whose access is an 8-byte write of a decodable value to CMD stores the value and is exec of the decoded command;
around it the access is taken off the host's list and nothing is returned to the host. -/
def Obligations.StepRunsTheDecodedCommand : Prop :=
  ∀ (s : State) (v : BitVec 64) (rest : List BusEvent) (i : Instr),
    s.pending = .write (s.params.base + 0x10) 8 v :: rest → decode s.params v = .ok i →
      step s = exec i { s with cmd := v, pending := rest, readData := none }

/-- R210: a write to CMD of a value that R210 makes ILLEGAL stores it and raises ILLEGAL (code 1), with INFO the low half of the value
written. -/
def Obligations.IllegalCommandValueRaisesIllegal : Prop :=
  ∀ (s : State) (v : BitVec 64) (rest : List BusEvent),
    s.pending = .write (s.params.base + 0x10) 8 v :: rest → IllegalCommandValue s.params v →
      step s = .next
        { recorded 1 (v.extractLsb' 0 32) false false { s with cmd := v, pending := rest, readData := none } with result := 0#64 }

/-- R60, R98, R218: every step of the block, from any state, ends in a next state: no access and no command stops it. Three clauses
are the model's: that an illegal access does not stop the block is its reading of R64's word fault (log 11, DEDUCED), that one
event is taken off the host's list by each step is its form for the host's accesses (log 6, DESIGN CHOICE and DEDUCED), and that
the rest of the list survives a reset is its choice (log 16, DESIGN CHOICE). -/
def Obligations.EveryStepAnswersANextState : Prop :=
  ∀ s : State, ∃ t : State, step s = .next t ∧ (s.pending = [] → t = s) ∧ t.pending = s.pending.tail

/-- R213, R214, R215: recording an error of a cause sets the STATUS bit of its code and writes ERRINFO only where STATUS[5:0] was zero;
raising it also sets RESULT to 0, with INFO the command word; neither changes anything else. -/
def Obligations.RaisingAnErrorIsPrecise : Prop :=
  ∀ (s : State) (c : Cause) (code : Nat),
    (c, code) ∈ [(.illegal, 1), (.cfg, 2), (.unbuilt, 3), (.range, 4), (.nonfinite, 5), (.bus, 6)] →
      (∀ info regacc write, s.recordError c info regacc write = recorded code info regacc write s) ∧
        s.recordCommandError c = recorded code (s.cmd.extractLsb' 0 32) false false s ∧ s.raiseError c = raised code s

/-- R22 to R28, R63, R65: an 8-byte read of each of the seven registers returns its 64-bit value and changes no register. -/
def Obligations.LegalReadsReturnTheRegister : Prop :=
  ∀ (s : State) (rest : List BusEvent) (off : Nat) (value : BitVec 64),
    (off, value) ∈
      [(0x00, idWord s.params), (0x08, s.operand), (0x10, s.cmd), (0x18, s.result), (0x20, s.status), (0x28, s.errinfo),
        (0x30, s.sampleRate.setWidth 64)] →
    s.pending = .read (s.params.base + off) 8 :: rest →
      step s = .next { s with pending := rest, readData := some value }

/-- R22: the fields of ID, for legal parameters. -/
def Obligations.IdReportsTheParameters : Prop :=
  ∀ p : Params, p.legal →
    (idWord p).extractLsb' 0 8 = p.specRev ∧ ((idWord p).extractLsb' 8 8).toNat = p.numOsc - 1 ∧
      ((idWord p).extractLsb' 16 8).toNat = p.numFlt - 1 ∧ (idWord p).extractLsb' 24 8 = 0#8 ∧
      ((idWord p).extractLsb' 32 32).toNat = p.maxN

/-- R29, R64, R212: an illegal read of the window (a size other than 8, an unaligned offset, offset 0x38) returns 0, records BUS (code
6) with its offset, REGACC 1 and WRITE 0, and changes nothing else. That a read which starts in the window and ends past it, and
one of size 0, are such reads is the model's choice (log 8, DESIGN CHOICE); that the block goes on after one is its reading of
R64 (log 11, DEDUCED). -/
def Obligations.IllegalReadsRecordABusError : Prop :=
  ∀ (s : State) (rest : List BusEvent) (off size : Nat),
    off < 64 → size ≠ 8 ∨ off % 8 ≠ 0 ∨ off = 0x38 → s.pending = .read (s.params.base + off) size :: rest →
      step s = .next
        { recorded 6 (BitVec.ofNat 32 off) true false { s with pending := rest } with readData := some 0#64 }

/-- R22, R25, R27, R29, R64, R212: an illegal write of the window (a size other than 8, an unaligned offset, offset 0x38, or a write to
ID, RESULT or ERRINFO) records BUS with its offset, REGACC 1 and WRITE 1, and changes no register other than STATUS and
ERRINFO. That a write which starts in the window and ends past it, and one of size 0, are such writes is the model's choice (log
8, DESIGN CHOICE), that the value of a write of a wrong size makes no difference is its inference (log 8, DEDUCED), and that the
block goes on after one is its reading of R64 (log 11, DEDUCED). -/
def Obligations.IllegalWritesRecordABusError : Prop :=
  ∀ (s : State) (rest : List BusEvent) (off size : Nat) (v : BitVec 64),
    off < 64 → size ≠ 8 ∨ off % 8 ≠ 0 ∨ off ∈ [0x00, 0x18, 0x28, 0x38] →
    s.pending = .write (s.params.base + off) size v :: rest →
      step s = .next (recorded 6 (BitVec.ofNat 32 off) true true { s with pending := rest, readData := none })

/-- R23: a host write to OPERAND stores the value and changes no other register; no command runs. -/
def Obligations.OperandWriteStoresTheValue : Prop :=
  ∀ (s : State) (rest : List BusEvent) (v : BitVec 64),
    s.pending = .write (s.params.base + 0x08) 8 v :: rest →
      step s = .next { s with operand := v, pending := rest, readData := none }

/-- R26, R219: a host write of v to STATUS clears the bits of [5:0] that v has as 1, leaves every other bit, and changes no other
register. -/
def Obligations.StatusWriteClearsTheBitsWrittenAsOne : Prop :=
  ∀ (s : State) (rest : List BusEvent) (v : BitVec 64),
    s.pending = .write (s.params.base + 0x20) 8 v :: rest →
      ∃ t : State, step s = .next t ∧ t = { s with status := t.status, pending := rest, readData := none } ∧
        ∀ i < 64, t.status.getLsbD i = (s.status.getLsbD i && !(decide (i < 6) && v.getLsbD i))

/-- R28, R212: a host write to SAMPLE_RATE of a nonzero value with bits [63:32] zero sets it; any other records CFG (code 2) with INFO
0x30, REGACC 1 and WRITE 1 and leaves it. -/
def Obligations.SampleRateWritesAreValidated : Prop :=
  ∀ (s : State) (rest : List BusEvent) (v : BitVec 64),
    s.pending = .write (s.params.base + 0x30) 8 v :: rest →
      (v.extractLsb' 32 32 = 0#32 ∧ v.extractLsb' 0 32 ≠ 0#32 →
        step s = .next { s with sampleRate := v.extractLsb' 0 32, pending := rest, readData := none }) ∧
      (¬(v.extractLsb' 32 32 = 0#32 ∧ v.extractLsb' 0 32 ≠ 0#32) →
        step s = .next (recorded 2 0x30#32 true true { s with pending := rest, readData := none }))

/-- R72: an access to an address outside BASE to BASE + 63 does not reach the block: only the host's list moves on. (That an access is
placed by its first byte is the model's choice, log 8.) -/
def Obligations.AccessesOutsideTheWindowChangeNothing : Prop :=
  ∀ (s : State) (rest : List BusEvent) (addr size : Nat) (v : BitVec 64),
    addr < s.params.base ∨ s.params.base + 64 ≤ addr →
      (s.pending = .read addr size :: rest ∨ s.pending = .write addr size v :: rest) →
        step s = .next { s with pending := rest, readData := none }

/-- R62: the register window is little-endian: eight bytes written at a register's address are one write of the value whose byte k is
the k-th of them, and byte k of a register stands at its address + k. -/
def Obligations.TheWindowIsLittleEndian : Prop :=
  (∀ (addr : Nat) (b0 b1 b2 b3 b4 b5 b6 b7 : BitVec 8),
    ∃ v : BitVec 64, BusEvent.writeBytes addr [b0, b1, b2, b3, b4, b5, b6, b7] = .write addr 8 v ∧
      (List.range 8).map (byteOf v) = [b0, b1, b2, b3, b4, b5, b6, b7]) ∧
  ∀ (s : State) (r : Reg) (off k : Nat), regAt off 8 = some r → k < 8 →
    ∃ b : BitVec 8, s.windowByte (s.params.base + off + k) = some b ∧
      ∀ j < 8, b.getLsbD j = (s.regValue r).getLsbD (8 * k + j)

/-- R25, R212: an access that is no 8-byte write to CMD never changes RESULT (the reset input does: R250). -/
def Obligations.OnlyCommandsChangeResult : Prop :=
  ∀ (s t : State) (e : BusEvent) (rest : List BusEvent),
    s.pending = e :: rest → e ≠ .reset → (∀ v, e ≠ .write (s.params.base + 0x10) 8 v) → step s = .next t →
      t.result = s.result

/-- R25, R255: every command writes RESULT: what it held before makes no difference to anything a command leaves. -/
def Obligations.CommandsOverwriteResult : Prop :=
  ∀ (i : Instr) (s : State) (r : BitVec 64), exec i { s with result := r } = exec i s

/-- R42, R219: commands execute the same whatever STATUS and ERRINFO hold: two states that differ only there have, after one command,
next states that differ only there. -/
def Obligations.CommandsIgnoreStatus : Prop :=
  ∀ (i : Instr) (s t : State) (status errinfo : BitVec 64), exec i s = .next t →
    ∃ u : State, exec i { s with status := status, errinfo := errinfo } = .next u ∧
      { u with status := t.status, errinfo := t.errinfo } = t

/-- R2, R92: channels do not share state: a command gives the same next state, up to a channel it does not act on, whatever that
channel holds, and leaves that channel as it was. -/
def Obligations.ChannelsAreIndependent : Prop :=
  ∀ (i : Instr) (s t : State) (c : Nat), exec i s = .next t →
    (∀ o : OscChannel, i.unit = .flt ∨ c ≠ i.ch.toNat →
      exec i { s with oscs := s.oscs.set c o } = .next { t with oscs := t.oscs.set c o } ∧ t.oscs[c]? = s.oscs[c]?) ∧
    ∀ x : FltChannel, i.unit = .osc ∨ c ≠ i.ch.toNat →
      exec i { s with flts := s.flts.set c x } = .next { t with flts := t.flts.set c x } ∧ t.flts[c]? = s.flts[c]?

/-! ### Reset and invariants: spec/70_reset_and_hazards.md R250, R251 -/

/-- R250, R251: the reset input brings every state element to its reset value, whatever the state. Two clauses are the model's: that the
host still has its coming accesses to make (`t.pending = rest`) is its choice (log 16, DESIGN CHOICE), and that the parameters
stay (`t.params = s.params`) is its inference (log 1, DEDUCED). -/
def Obligations.ResetRestoresEveryElement : Prop :=
  ∀ (s : State) (rest : List BusEvent), s.pending = .reset :: rest →
    ∃ t : State, step s = .next t ∧ t.params = s.params ∧ t.operand = 0#64 ∧ t.cmd = 0#64 ∧ t.result = 0#64 ∧ t.status = 0#64 ∧
      t.errinfo = 0#64 ∧ t.sampleRate = s.params.srReset ∧ t.pending = rest ∧
      t.oscs.length = s.params.numOsc ∧ t.flts.length = s.params.numFlt ∧
      (∀ o ∈ t.oscs, o.built = false ∧ o.kind = .sine ∧ o.interp = false ∧ o.n = 0 ∧ o.coeff.toBits = 0#64 ∧
        o.phase.toBits = 0#64) ∧
      ∀ x ∈ t.flts, x.z.z0.toBits = 0#64 ∧ x.z.z1.toBits = 0#64 ∧ x.z.z2.toBits = 0#64 ∧ x.z.z3.toBits = 0#64 ∧
        x.z.z4.toBits = 0#64 ∧ x.k.toBits = 0#64 ∧ x.amp.toBits = 0x3FF0000000000000#64 ∧
        x.ah.toBits = 0xBFBEC550F5B2E782#64 ∧ x.bh.toBits = 0x3FE1EC550F5B2E78#64 ∧ x.fc.toBits = 0x3FD0000000000000#64

/-- The invariant holds right after reset, in a block with any legal parameters. -/
def Obligations.ResetMeetsTheInvariant : Prop :=
  ∀ p : Params, p.legal → (State.resetWith p).Inv

/-- R33, R35, R37, R41, R26, R27, R28, R36, and R2: every step keeps the invariant: phases stay in [0, N), filter state stays finite,
cutoffs stay clamped, tables stay whole, reserved bits stay 0, the parameters and the number of channels stay. -/
def Obligations.EveryStepKeepsTheInvariant : Prop :=
  ∀ s t : State, s.Inv → step s = .next t → t.Inv ∧ t.params = s.params

/-- R69, R120, R137: once built, a channel keeps its kind, its interpolation flag, its size, its coefficient and every entry of its
table until the next reset, whatever the host does. -/
def Obligations.BuiltChannelIsFixedUntilReset : Prop :=
  ∀ (s t : State) (c : Nat) (o : OscChannel), s.oscs[c]? = some o → o.built = true → s.pending.head? ≠ some .reset →
    step s = .next t → ∃ p : Binary64, t.oscs[c]? = some { o with phase := p }

/-! ### Oscillator commands: spec/40_oscillator.md -/

/-- R134: the square table, by an integer comparison. -/
def Obligations.SquareEntries : Prop :=
  ∀ i n : Nat, (2 * i < n → (tableEntry .square i n).toBits = 0x3F800000#32) ∧
    (n ≤ 2 * i → (tableEntry .square i n).toBits = 0xBF800000#32)

/-- R131, R132: at the tie x = 0.5 the sawtooth is -1.0 and the ramp +1.0, for every even table size the block can hold. -/
def Obligations.SawtoothJumpsAtHalf : Prop :=
  ∀ m : Nat, 1 ≤ m → 2 * m ≤ 4294967295 →
    (tableEntry .saw m (2 * m)).toBits = 0xBF800000#32 ∧ (tableEntry .ramp m (2 * m)).toBits = 0x3F800000#32

/-- R131 to R134: entry 0 of the four tables that do not depend on sinF: +0, -0, +0 and +1. -/
def Obligations.FirstEntryOfEachTable : Prop :=
  ∀ n : Nat, 1 ≤ n → n ≤ 4294967295 →
    (tableEntry .saw 0 n).toBits = 0x00000000#32 ∧ (tableEntry .ramp 0 n).toBits = 0x80000000#32 ∧
      (tableEntry .triangle 0 n).toBits = 0x00000000#32 ∧ (tableEntry .square 0 n).toBits = 0x3F800000#32

/-- R130 to R133: the formulas of the sine, sawtooth, ramp and triangle entries, in their evaluation order, with TWO_PI64 and 0.25 by
their bit patterns. -/
def Obligations.TableFormulas : Prop :=
  ∀ i n : Nat,
    let x := (Binary64.ofInt i).div (.ofInt n)
    let y := x.sub (.ofBits 0x3FD0000000000000#64)
    tableEntry .sine i n = (Config.sinF (((Binary64.ofBits 0x401921FB54442D18#64).mul (.ofInt i)).div (.ofInt n))).to32 ∧
    tableEntry .saw i n = ((Binary64.ofInt 2).mul (x.sub (.ofInt x.roundHalfUp))).to32 ∧
    tableEntry .ramp i n = (tableEntry .saw i n).neg ∧
    tableEntry .triangle i n = ((Binary64.ofInt 1).sub ((Binary64.ofInt 4).mul ((Binary64.ofInt y.roundHalfUp).sub y).abs)).to32

/-- R136, R137: OSC_BUILD on an unbuilt channel, with a known kind and a size from 1 to MAX_N, completes: entries 0 to n - 1 hold the
formula's values, every other entry is as it was, COEFF is f64(n) /. f64(SAMPLE_RATE), PHASE is +0.0, RESULT is 0, and nothing
else changes. -/
def Obligations.OscBuildBuildsTheChannel : Prop :=
  ∀ (ch : BitVec 8) (w : Waveform) (interp defsize : Bool) (s : State) (o : OscChannel) (n : Nat),
    s.oscs[ch.toNat]? = some o → ch.toNat < s.params.numOsc → o.built = false →
    n = (if defsize then s.sampleRate.toNat else s.operand.toNat) → 1 ≤ n → n ≤ s.params.maxN →
      ∃ table : Memory,
        exec (.oscBuild ch w.bits interp defsize) s = .next
          { s with
            result := 0#64
            oscs := s.oscs.set ch.toNat
              { built := true, kind := w, interp := interp, n := n,
                coeff := (Binary64.ofInt n).div (.ofInt s.sampleRate.toNat), phase := .zero, table := table } } ∧
        (∀ i < n, table.read i = some (tableEntry w i n)) ∧ ∀ i, n ≤ i → table.read i = o.table.read i

/-- R120, R137: OSC_BUILD raises CFG (code 2) on a built channel, for KIND 5 to 7, and for a size of 0 or above MAX_N, and changes no
channel. -/
def Obligations.OscBuildRefusesMisconfiguration : Prop :=
  ∀ (ch : BitVec 8) (kind : BitVec 3) (interp defsize : Bool) (s : State) (o : OscChannel) (n : Nat),
    s.oscs[ch.toNat]? = some o → ch.toNat < s.params.numOsc →
    n = (if defsize then s.sampleRate.toNat else s.operand.toNat) →
    o.built = true ∨ 4 < kind.toNat ∨ n = 0 ∨ s.params.maxN < n →
      exec (.oscBuild ch kind interp defsize) s = .next (raised 2 s)

/-- R140, R141, R142: OSC_PLAY on a built channel without interpolation, where the phase advanced and wrapped once lies in [0, N),
completes: PHASE becomes it, RESULT the entry at its integer part, and nothing else changes. -/
def Obligations.OscPlayTruncates : Prop :=
  ∀ (ch : BitVec 8) (s : State) (o : OscChannel) (q p : Binary64) (w : Binary32),
    s.oscs[ch.toNat]? = some o → ch.toNat < s.params.numOsc → o.built = true → o.interp = false →
    q = o.phase.add ((Binary64.ofBits s.operand).mul o.coeff) →
    p = (if q.ge (.ofInt o.n) then q.sub (.ofInt o.n) else q) →
    p.ge .zero = true → p.lt (.ofInt o.n) = true → o.table.read p.floorInt.toNat = some w →
      exec (.oscPlay ch) s = .next
        { s with oscs := s.oscs.set ch.toNat { o with phase := p }, result := w.from32.toBits }

/-- R140, R141, R143: the same with interpolation: RESULT is curr +. (next -. curr) *. alpha, where next wraps to entry 0 at the end
of the table. -/
def Obligations.OscPlayInterpolates : Prop :=
  ∀ (ch : BitVec 8) (s : State) (o : OscChannel) (q p : Binary64) (w w' : Binary32) (idx : Nat),
    s.oscs[ch.toNat]? = some o → ch.toNat < s.params.numOsc → o.built = true → o.interp = true →
    q = o.phase.add ((Binary64.ofBits s.operand).mul o.coeff) →
    p = (if q.ge (.ofInt o.n) then q.sub (.ofInt o.n) else q) →
    p.ge .zero = true → p.lt (.ofInt o.n) = true → idx = p.floorInt.toNat →
    o.table.read idx = some w → o.table.read (if idx + 1 = o.n then 0 else idx + 1) = some w' → idx < o.n →
      exec (.oscPlay ch) s = .next
        { s with
          oscs := s.oscs.set ch.toNat { o with phase := p }
          result := (w.from32.add ((w'.from32.sub w.from32).mul (p.sub (.ofInt idx)))).toBits }

/-- R141, R143: an accepted phase has its integer part in the table, and alpha is exact and in [0, 1). -/
def Obligations.AcceptedPhaseIndexesTheTable : Prop :=
  ∀ (p : Binary64) (n : Nat), n ≤ 2 ^ 53 → p.ge .zero = true → p.lt (.ofInt n) = true →
    0 ≤ p.floorInt ∧ p.floorInt < n ∧
      ∃ x : Int, p.place = some x ∧ (p.sub (.ofInt p.floorInt)).place = some (x - p.floorInt * unit64) ∧
        0 ≤ x - p.floorInt * unit64 ∧ x - p.floorInt * unit64 < unit64

/-- R141, R140: OSC_PLAY raises RANGE (code 4) on a built channel where the advanced phase is not in [0, N), and UNBUILT (code 3) on an
unbuilt one; PHASE keeps its value. -/
def Obligations.OscPlayErrors : Prop :=
  ∀ (ch : BitVec 8) (s : State) (o : OscChannel) (q p : Binary64),
    s.oscs[ch.toNat]? = some o → ch.toNat < s.params.numOsc →
    q = o.phase.add ((Binary64.ofBits s.operand).mul o.coeff) →
    p = (if q.ge (.ofInt o.n) then q.sub (.ofInt o.n) else q) →
      (o.built = false → exec (.oscPlay ch) s = .next (raised 3 s)) ∧
      (o.built = true → ¬(p.ge .zero = true ∧ p.lt (.ofInt o.n) = true) → exec (.oscPlay ch) s = .next (raised 4 s))

/-- R141: a NaN or infinite frequency raises RANGE on every built channel. -/
def Obligations.NonfiniteFrequencyRaisesRange : Prop :=
  ∀ (ch : BitVec 8) (s : State) (o : OscChannel),
    s.oscs[ch.toNat]? = some o → ch.toNat < s.params.numOsc → o.built = true →
    (Binary64.ofBits s.operand).isFinite = false →
      exec (.oscPlay ch) s = .next (raised 4 s)

/-- R144 (b): a frequency of +0 or -0 leaves PHASE unchanged and raises nothing, in every state of the invariant. -/
def Obligations.PlayAtFrequencyZeroKeepsThePhase : Prop :=
  ∀ (ch : BitVec 8) (s : State) (o : OscChannel), s.Inv →
    s.oscs[ch.toNat]? = some o → o.built = true → s.operand = 0#64 ∨ s.operand = 0x8000000000000000#64 →
      ∃ t : State, exec (.oscPlay ch) s = .next t ∧ t.oscs = s.oscs ∧ t.status = s.status ∧ t.errinfo = s.errinfo

/-- R145: OSC_READ of PHASE, N, COEFF and a table entry on a built channel, and of CONFIG on any channel, gives the element in RESULT and
changes nothing else. -/
def Obligations.OscReadReturnsTheElement : Prop :=
  ∀ (ch : BitVec 8) (s : State) (o : OscChannel) (w : Binary32),
    s.oscs[ch.toNat]? = some o → ch.toNat < s.params.numOsc →
      (o.built = true → exec (.oscRead ch .phase) s = .next { s with result := o.phase.toBits }) ∧
      (o.built = true → exec (.oscRead ch .n) s = .next { s with result := BitVec.ofNat 64 o.n }) ∧
      (o.built = true → exec (.oscRead ch .coeff) s = .next { s with result := o.coeff.toBits }) ∧
      (exec (.oscRead ch .config) s = .next
        { s with
          result := ((BitVec.ofBool o.built).setWidth 64 <<< 16) ||| ((BitVec.ofBool o.interp).setWidth 64 <<< 8) |||
            o.kind.bits.setWidth 64 }) ∧
      (o.built = true → s.operand.toNat < o.n → o.table.read s.operand.toNat = some w →
        exec (.oscRead ch .table) s = .next { s with result := w.from32.toBits })

/-- R145: OSC_READ of PHASE, N, COEFF or a table entry on an unbuilt channel raises UNBUILT (code 3), and of a table entry at an index
of N or above on a built one RANGE (code 4). -/
def Obligations.OscReadErrors : Prop :=
  ∀ (ch : BitVec 8) (s : State) (o : OscChannel) (sel : OscSel),
    s.oscs[ch.toNat]? = some o → ch.toNat < s.params.numOsc →
      (o.built = false → sel ≠ .config → exec (.oscRead ch sel) s = .next (raised 3 s)) ∧
      (o.built = true → o.n ≤ s.operand.toNat → exec (.oscRead ch .table) s = .next (raised 4 s))

/-- R23, R28, R137, R141, R145, R215: the frame of the three oscillator commands. OPERAND, CMD, SAMPLE_RATE, the filter channels and the
host's side stay; every other oscillator channel stays; of its own, OSC_READ changes nothing, OSC_PLAY only PHASE, and
OSC_BUILD nothing once it is built; every table entry stays but those below the new N of a channel OSC_BUILD builds; STATUS
and ERRINFO stay unless the command raised an error, and then everything else but RESULT stays. -/
def Obligations.FrameOfTheOscillatorCommands : Prop :=
  ∀ (i : Instr) (s t : State), i.unit = .osc → exec i s = .next t →
    (t.params = s.params ∧ t.operand = s.operand ∧ t.cmd = s.cmd ∧ t.sampleRate = s.sampleRate ∧ t.flts = s.flts ∧
      t.pending = s.pending ∧ t.readData = s.readData) ∧
    (t.oscs.length = s.oscs.length ∧ ∀ c, c ≠ i.ch.toNat → t.oscs[c]? = s.oscs[c]?) ∧
    ((∃ sel, i = .oscRead i.ch sel) → t.oscs = s.oscs) ∧
    (∀ o, s.oscs[i.ch.toNat]? = some o →
      (i = .oscPlay i.ch → ∃ p, t.oscs[i.ch.toNat]? = some { o with phase := p }) ∧
      (o.built = true → i ≠ .oscPlay i.ch → t.oscs[i.ch.toNat]? = some o) ∧
      ∀ o', t.oscs[i.ch.toNat]? = some o' → ∀ j, o'.n ≤ j → o'.table.read j = o.table.read j) ∧
    ((t.status = s.status ∧ t.errinfo = s.errinfo) ∨ ∃ code, t = raised code s)

/-! ### Filter commands: spec/41_filter.md -/

/-- R161: clip(v) is v /. (1 +. abs64(v)) for every v; by (a) it is odd on the finite values (a NaN has no one answer, log 3), and clip
of +0 is +0; by (c) it is a NaN where v is not finite. -/
def Obligations.ClipIsOdd : Prop :=
  (∀ v : Binary64, clip v = v.div ((Binary64.ofInt 1).add v.abs)) ∧
  (∀ (s : Bool) (e : Fin 2047) (f : BitVec 52), clip (Binary64.finite s e f).neg = (clip (.finite s e f)).neg) ∧
    clip .zero = .zero ∧ ∀ v : Binary64, v.isFinite = false → (clip v).isNaN = true

/-- R161, C2, for finite v: |clip(v)| <= 1 always, |clip(v)| < 1 below 2^53, and clip(v) is 1.0 with the sign of v, exactly, at 2^53
and from 2^54 on. (Between them R161 (b) says the same, and the formula in the arithmetic of R8 does not for an odd
significand: log 15.) -/
def Obligations.ClipIsBoundedAndSaturates : Prop :=
  (∀ (s : Bool) (e : Fin 2047) (f : BitVec 52),
    (∃ x : Int, (clip (.finite s e f)).place = some x ∧ -(unit64 : Int) ≤ x ∧ x ≤ unit64 ∧
      ((mag64 e f : Int) < 2 ^ 53 * unit64 → -(unit64 : Int) < x ∧ x < unit64)) ∧
    (2 ^ 54 * (unit64 : Int) ≤ mag64 e f → clip (.finite s e f) = if s then Binary64.one.neg else .one)) ∧
  clip (.ofInt (2 ^ 53)) = .one ∧ clip (.ofInt (-2 ^ 53)) = Binary64.one.neg

/-- R162, R168, R41: whatever the operand, NaN and infinities included, FLT_SET_FC leaves 0.02 <= FC <= 0.999; a value of the square
inside the range is kept, one above gives 0.999, one below or a NaN gives 0.02; RESULT is 0 and nothing else changes. -/
def Obligations.FltSetFcClampsTheSquare : Prop :=
  ∀ (ch : BitVec 8) (s : State) (x : FltChannel), s.flts[ch.toNat]? = some x → ch.toNat < s.params.numFlt →
    let lo := Binary64.ofBits 0x3F947AE147AE147B#64
    let hi := Binary64.ofBits 0x3FEFF7CED916872B#64
    ∃ fc : Binary64,
      exec (.fltSetFc ch) s = .next { s with result := 0#64, flts := s.flts.set ch.toNat { x with fc := fc } } ∧
        fc.ge lo = true ∧ fc.le hi = true ∧
        let v := (Binary64.ofBits s.operand).mul (.ofBits s.operand)
        (v.ge lo = true ∧ v.le hi = true → fc = v) ∧ (v.gt hi = true → fc = hi) ∧
          (v.lt lo = true ∨ v.isNaN = true → fc = lo)

/-- R166: FLT_SET_Q sets K to 20 q and AMP to 1 + 0.5 K, for any operand; RESULT is 0 and nothing else changes. -/
def Obligations.FltSetQSetsTheGains : Prop :=
  ∀ (ch : BitVec 8) (s : State) (x : FltChannel), s.flts[ch.toNat]? = some x → ch.toNat < s.params.numFlt →
    let k := (Binary64.ofInt 20).mul (.ofBits s.operand)
    exec (.fltSetQ ch) s = .next
      { s with
        result := 0#64
        flts := s.flts.set ch.toNat { x with k := k, amp := (Binary64.ofInt 1).add ((Binary64.ofBits 0x3FE0000000000000#64).mul k) } }

/-- R167: FLT_SET_HPF sets AH to (Kh - 2) / (Kh + 2) and BH to 2 / (Kh + 2) with Kh = h PI64, for any operand; RESULT is 0 and nothing
else changes. -/
def Obligations.FltSetHpfSetsTheHighpass : Prop :=
  ∀ (ch : BitVec 8) (s : State) (x : FltChannel), s.flts[ch.toNat]? = some x → ch.toNat < s.params.numFlt →
    let kh := (Binary64.ofBits s.operand).mul (.ofBits 0x400921FB54442D18#64)
    exec (.fltSetHpf ch) s = .next
      { s with
        result := 0#64
        flts := s.flts.set ch.toNat
          { x with
            ah := (kh.sub (.ofInt 2)).div (kh.add (.ofInt 2))
            bh := (Binary64.ofInt 2).div (kh.add (.ofInt 2)) } }

/-- R169: FLT_RESET sets all of Z to +0.0 where K < 17 and keeps it otherwise, a NaN K included; RESULT is 0 and nothing else changes. -/
def Obligations.FltResetClearsBelow17 : Prop :=
  ∀ (ch : BitVec 8) (s : State) (x : FltChannel), s.flts[ch.toNat]? = some x → ch.toNat < s.params.numFlt →
    (x.k.lt (.ofInt 17) = true →
      exec (.fltReset ch) s = .next
        { s with
          result := 0#64
          flts := s.flts.set ch.toNat { x with z := ⟨.zero, .zero, .zero, .zero, .zero⟩ } }) ∧
    ((Binary64.ofInt 17).le x.k = true ∨ x.k.isNaN = true → exec (.fltReset ch) s = .next { s with result := 0#64 })

/-- R161, R163, R171 to R178: one FLT_RUN, formula by formula in the order of R8, the clip written out. Where the output and the five new registers are finite they
are committed; where one is not, Z is cleared, RESULT is +0.0 and NONFINITE (code 5) is recorded; nothing else changes. -/
def Obligations.FltRunComputesOneSample : Prop :=
  ∀ (ch : BitVec 8) (s : State) (f : FltChannel), s.flts[ch.toNat]? = some f → ch.toNat < s.params.numFlt →
    let two := Binary64.ofInt 2
    let three := Binary64.ofInt 3
    let four := Binary64.ofInt 4
    let one := Binary64.ofInt 1
    let x := Binary64.ofBits s.operand
    let half := Binary64.ofBits 0x3FE0000000000000#64
    let pi := Binary64.ofBits 0x400921FB54442D18#64
    let a := two.mul (Config.tanF ((pi.mul f.fc).mul half))
    let ainv := one.div a
    let a2 := a.mul a
    let b := (two.mul a).add one
    let b2 := b.mul b
    let c := one.div ((((two.mul a2).mul a2).sub ((four.mul a2).mul b2)).add (b2.mul b2))
    let g0 := ((two.mul a2).mul a2).mul c
    let g := g0.mul f.bh
    let t0 := (a2.mul a).mul f.z.z0
    let t1 := (a2.mul b).mul f.z.z1
    let t2 := (f.z.z2.mul (b2.sub (two.mul a2))).mul a
    let t3 := (f.z.z3.mul (b2.sub (three.mul a2))).mul b
    let s0 := (((t0.add t1).add t2).add t3).mul c
    let s' := (f.bh.mul s0).sub f.z.z4
    let u := x.sub (f.k.mul (((g.mul x).add s').div (one.add (g.mul f.k))))
    let y0 := u.div (one.add u.abs)
    let y5 := (g.mul y0).add s'
    let y4 := (g0.mul y0).add s0
    let y3 := ((b.mul y4).sub f.z.z3).mul ainv
    let y2 := (((b.mul y3).sub (a.mul y4)).sub f.z.z2).mul ainv
    let y1 := (((b.mul y2).sub (a.mul y3)).sub f.z.z1).mul ainv
    let z0 := f.z.z0.add ((four.mul a).mul ((y0.sub y1).add y2))
    let z1 := f.z.z1.add ((two.mul a).mul ((y1.sub (two.mul y2)).add y3))
    let z2 := f.z.z2.add ((two.mul a).mul ((y2.sub (two.mul y3)).add y4))
    let z3 := f.z.z3.add ((two.mul a).mul (y3.sub (two.mul y4)))
    let z4 := (f.bh.mul y4).add (f.ah.mul y5)
    let out := f.amp.mul y4
    exec (.fltRun ch) s = .next
      (if out.isFinite && z0.isFinite && z1.isFinite && z2.isFinite && z3.isFinite && z4.isFinite then
        { s with result := out.toBits, flts := s.flts.set ch.toNat { f with z := ⟨z0, z1, z2, z3, z4⟩ } }
      else
        { recorded 5 (s.cmd.setWidth 32) false false s with
          result := 0#64
          flts := s.flts.set ch.toNat { f with z := ⟨.zero, .zero, .zero, .zero, .zero⟩ } })

/-- R177, R179 (c), (e): an input, K, AH or BH that is not finite trips the guard, whatever tanF is: Z is cleared even where K is 17 or
more, RESULT is +0.0, NONFINITE (code 5) is recorded, and the parameters stay. -/
def Obligations.NonfiniteInputOrParameterTripsTheGuard : Prop :=
  ∀ (ch : BitVec 8) (s : State) (x : FltChannel), s.flts[ch.toNat]? = some x → ch.toNat < s.params.numFlt →
    (Binary64.ofBits s.operand).isFinite = false ∨ x.k.isFinite = false ∨ x.ah.isFinite = false ∨ x.bh.isFinite = false →
      exec (.fltRun ch) s = .next
        { recorded 5 (s.cmd.setWidth 32) false false s with
          result := 0#64
          flts := s.flts.set ch.toNat { x with z := ⟨.zero, .zero, .zero, .zero, .zero⟩ } }

/-- R180: FLT_READ gives each of the ten elements in RESULT as its bit pattern and changes nothing else. -/
def Obligations.FltReadReturnsTheElement : Prop :=
  ∀ (ch : BitVec 8) (s : State) (x : FltChannel), s.flts[ch.toNat]? = some x → ch.toNat < s.params.numFlt →
    ∀ (sel : FltSel) (value : Binary64),
      (sel, value) ∈
        [(.z0, x.z.z0), (.z1, x.z.z1), (.z2, x.z.z2), (.z3, x.z.z3), (.z4, x.z.z4), (.k, x.k), (.amp, x.amp), (.ah, x.ah),
          (.bh, x.bh), (.fc, x.fc)] →
      exec (.fltRead ch sel) s = .next { s with result := value.toBits }

/-- R160, R166 to R169, R176, R177, R180: the frame of the six filter commands. OPERAND, CMD, SAMPLE_RATE, the oscillator channels with
every table entry, and the host's side stay; every other filter channel stays; K and AMP change only in FLT_SET_Q, AH and BH
only in FLT_SET_HPF, FC only in FLT_SET_FC, Z only in FLT_RESET and FLT_RUN; on a channel the block holds, STATUS and ERRINFO
change only in FLT_RUN. -/
def Obligations.FrameOfTheFilterCommands : Prop :=
  ∀ (i : Instr) (s t : State), i.unit = .flt → exec i s = .next t →
    (t.params = s.params ∧ t.operand = s.operand ∧ t.cmd = s.cmd ∧ t.sampleRate = s.sampleRate ∧ t.oscs = s.oscs ∧
      t.pending = s.pending ∧ t.readData = s.readData) ∧
    (t.flts.length = s.flts.length ∧ ∀ c, c ≠ i.ch.toNat → t.flts[c]? = s.flts[c]?) ∧
    (∀ x y, s.flts[i.ch.toNat]? = some x → t.flts[i.ch.toNat]? = some y →
      (i ≠ .fltSetQ i.ch → y.k = x.k ∧ y.amp = x.amp) ∧ (i ≠ .fltSetHpf i.ch → y.ah = x.ah ∧ y.bh = x.bh) ∧
        (i ≠ .fltSetFc i.ch → y.fc = x.fc) ∧ (i ≠ .fltReset i.ch → i ≠ .fltRun i.ch → y.z = x.z)) ∧
    (i.ch.toNat < s.params.numFlt → i ≠ .fltRun i.ch → t.status = s.status ∧ t.errinfo = s.errinfo)

/-! ### Numbers, continued: R8 to R10 -/

/-- R9: `to32` of every finite binary64 is the binary32 nearest to it, even where two are equally near, infinity past the overflow point,
with the sign kept; infinities are kept both ways, and a NaN gives a NaN (which NaN R9 does not say: log 4). -/
def Obligations.NarrowingRoundsToNearestEven : Prop :=
  (∀ (s : Bool) (e : Fin 2047) (f : BitVec 52), RoundedTo32 s (signed s (mag64 e f)) (Binary64.finite s e f).to32) ∧
  (∀ s : Bool, (Binary64.infinite s).to32 = .infinite s ∧ (Binary32.infinite s).from32 = .infinite s) ∧
  (∀ x : Binary64, x.isNaN = true → ∃ s q, x.to32 = .nan s q) ∧
  ∀ s q, (Binary32.nan s q).from32.isNaN = true

/-- R8: `abs64` clears bit 63 of the pattern and `neg64` flips it, whatever the datum; the sign flip of R132 does so on the 32 bits of a
table entry. -/
def Obligations.AbsAndNegActOnTheSignBit : Prop :=
  (∀ x : Binary64, x.abs.toBits = x.toBits &&& 0x7FFFFFFFFFFFFFFF#64 ∧ x.neg.toBits = x.toBits ^^^ 0x8000000000000000#64) ∧
  ∀ w : Binary32, w.neg.toBits = w.toBits ^^^ 0x80000000#32

/-- R10: the comparisons are the ordered ones of IEEE 754. On finite data they compare the values, so that the two zeros are equal; every
finite datum lies between the two infinities; a comparison with a NaN is false. -/
def Obligations.ComparisonsAreOrdered : Prop :=
  (∀ (sa : Bool) (ea : Fin 2047) (fa : BitVec 52) (sb : Bool) (eb : Fin 2047) (fb : BitVec 52),
    let a := signed sa (mag64 ea fa)
    let b := signed sb (mag64 eb fb)
    ((Binary64.finite sa ea fa).lt (.finite sb eb fb) = true ↔ a < b) ∧
    ((Binary64.finite sa ea fa).le (.finite sb eb fb) = true ↔ a ≤ b) ∧
    ((Binary64.finite sa ea fa).eq (.finite sb eb fb) = true ↔ a = b)) ∧
  (∀ x : Binary64, x.isFinite = true →
    (Binary64.infinite true).lt x = true ∧ x.lt (.infinite false) = true ∧ x.lt (.infinite true) = false ∧
      (Binary64.infinite false).lt x = false ∧ (Binary64.infinite true).le x = true ∧ x.le (.infinite false) = true ∧
      x.le (.infinite true) = false ∧ (Binary64.infinite false).le x = false ∧
      ∀ s, x.eq (.infinite s) = false ∧ (Binary64.infinite s).eq x = false) ∧
  (∀ s t : Bool, ((Binary64.infinite s).lt (.infinite t) = (s && !t)) ∧ ((Binary64.infinite s).le (.infinite t) = (s || !t)) ∧
    ((Binary64.infinite s).eq (.infinite t) = (s == t))) ∧
  (∀ a b : Binary64, a.isNaN = true ∨ b.isNaN = true → a.lt b = false ∧ a.le b = false ∧ a.eq b = false) ∧
  ∀ a b : Binary64, a.gt b = b.lt a ∧ a.ge b = b.le a
end

