-- ==== Sys2Proof/Laws/Rounding.lean ====
section
/-! SUPPORT. What magnitude codes stand for, and what the one rounding function computes in terms of them. -/

namespace Sys2Proof

/-! ### Codes -/

/-- A code written as a multiple of 2^p and a remainder. -/
theorem codeValue_of_parts {p e f : Nat} (hf : f < 2 ^ p) :
    codeValue p (e * 2 ^ p + f) = if e = 0 then f else (2 ^ p + f) * 2 ^ (e - 1) := by
  have hp : 0 < 2 ^ p := Nat.two_pow_pos p
  have h1 : (e * 2 ^ p + f) / 2 ^ p = e := by
    rw [Nat.add_comm, Nat.add_mul_div_right _ _ hp, Nat.div_eq_of_lt hf, Nat.zero_add]
  have h2 : (e * 2 ^ p + f) % 2 ^ p = f := by
    rw [Nat.add_comm, Nat.add_mul_mod_self_right, Nat.mod_eq_of_lt hf]
  simp only [codeValue, h1, h2]

/-- `k` steps of the exponent and an integer significand `m`: the code stands for `m * 2^k`. -/
theorem codeValue_scaled {p k m : Nat} (hm : m ≤ 2 ^ (p + 1)) (hk : k = 0 ∨ 2 ^ p ≤ m) :
    codeValue p (k * 2 ^ p + m) = m * 2 ^ k := by
  have hp : 2 ^ (p + 1) = 2 * 2 ^ p := by rw [Nat.pow_succ, Nat.mul_comm]
  have hpos : 0 < 2 ^ p := Nat.two_pow_pos p
  rcases Nat.lt_or_ge m (2 ^ p) with h | h
  · have hk0 : k = 0 := by omega
    subst hk0
    simpa using codeValue_of_parts (e := 0) h
  · rcases Nat.lt_or_ge m (2 * 2 ^ p) with h2 | h2
    · have e1 : k * 2 ^ p + m = (k + 1) * 2 ^ p + (m - 2 ^ p) := by rw [Nat.succ_mul]; omega
      rw [e1, codeValue_of_parts (by omega), if_neg (by omega), Nat.add_sub_cancel,
        show 2 ^ p + (m - 2 ^ p) = m by omega]
    · have e1 : k * 2 ^ p + m = (k + 2) * 2 ^ p + 0 := by rw [Nat.add_mul]; omega
      rw [e1, codeValue_of_parts hpos, if_neg (by omega), show k + 2 - 1 = k + 1 by omega, Nat.pow_succ,
        show m = 2 * 2 ^ p by omega]
      ring

/-- Every code is `k` exponent steps and a significand, as in `codeValue_scaled`. -/
theorem code_scaled (p c : Nat) :
    ∃ k m, c = k * 2 ^ p + m ∧ m < 2 ^ (p + 1) ∧ (k = 0 ∨ 2 ^ p ≤ m) ∧ codeValue p c = m * 2 ^ k := by
  have hpos : 0 < 2 ^ p := Nat.two_pow_pos p
  have hp : 2 ^ (p + 1) = 2 * 2 ^ p := by rw [Nat.pow_succ, Nat.mul_comm]
  have hmod := Nat.mod_lt c hpos
  have hc : c / 2 ^ p * 2 ^ p + c % 2 ^ p = c := Nat.div_add_mod' c (2 ^ p)
  rcases Nat.eq_zero_or_pos (c / 2 ^ p) with h | h
  · rw [h] at hc
    refine ⟨0, c, by omega, by omega, .inl rfl, ?_⟩
    have := codeValue_scaled (p := p) (k := 0) (m := c) (by omega) (.inl rfl)
    simpa using this
  · obtain ⟨e, he⟩ : ∃ e, c / 2 ^ p = e + 1 := ⟨c / 2 ^ p - 1, by omega⟩
    rw [he, Nat.succ_mul] at hc
    have e1 : c = e * 2 ^ p + (2 ^ p + c % 2 ^ p) := by omega
    refine ⟨e, 2 ^ p + c % 2 ^ p, e1, by omega, .inr (by omega), ?_⟩
    have := codeValue_scaled (p := p) (k := e) (m := 2 ^ p + c % 2 ^ p) (by omega) (.inr (by omega))
    rw [← e1] at this
    exact this

theorem codeValue_succ_gt (p c : Nat) : codeValue p c < codeValue p (c + 1) := by
  obtain ⟨k, m, hc, hm, hk, hv⟩ := code_scaled p c
  have := codeValue_scaled (p := p) (k := k) (m := m + 1) (by omega) (by omega)
  rw [hv, hc, Nat.add_assoc, this]
  exact Nat.mul_lt_mul_of_pos_right (by omega) (Nat.two_pow_pos k)

/-- A larger code stands for a larger magnitude. -/
theorem codeValue_strictMono (p : Nat) : StrictMono (codeValue p) :=
  strictMono_nat_of_lt_succ (codeValue_succ_gt p)

@[simp] theorem codeValue_zero (p : Nat) : codeValue p 0 = 0 := by
  simp [codeValue]

/-! ### Rounding -/

/-- The rounded integer is within half of the quotient, and even where it is exactly half away. -/
theorem roundHalfEven_spec {num den : Nat} (hd : 0 < den) :
    2 * (den * roundHalfEven num den) ≤ 2 * num + den ∧ 2 * num ≤ 2 * (den * roundHalfEven num den) + den ∧
      (2 * (den * roundHalfEven num den) = 2 * num + den ∨ 2 * num = 2 * (den * roundHalfEven num den) + den →
        roundHalfEven num den % 2 = 0) := by
  have hdm := Nat.div_add_mod num den
  have hm := Nat.mod_lt num hd
  unfold roundHalfEven
  split
  · exact ⟨by omega, by omega, by omega⟩
  · split
    · rw [Nat.mul_add, Nat.mul_one]
      exact ⟨by omega, by omega, by omega⟩
    · have hhalf : 2 * (num % den) = den := by omega
      rcases Nat.mod_two_eq_zero_or_one (num / den) with h | h
      · rw [h, Nat.add_zero]
        exact ⟨by omega, by omega, fun _ => h⟩
      · rw [h, Nat.mul_add, Nat.mul_one]
        exact ⟨by omega, by omega, fun _ => by omega⟩

/-- The power of two that `roundCode` rounds to. -/
def roundShift (p num den : Nat) : Nat := Nat.log2 (num / den) - p

theorem roundCode_eq (p num den : Nat) :
    roundCode p num den =
      roundShift p num den * 2 ^ p + roundHalfEven num (den * 2 ^ roundShift p num den) := by
  rw [Nat.mul_comm _ (2 ^ p)]; rfl

/-- The quotient lies below 2^(p + 1) units of the shift, and at or above 2^p of them unless the shift is 0. -/
theorem roundShift_spec {p num den : Nat} (hd : 0 < den) :
    num < den * 2 ^ roundShift p num den * 2 ^ (p + 1) ∧
      (roundShift p num den = 0 ∨ den * 2 ^ roundShift p num den * 2 ^ p ≤ num) := by
  have hlt : num / den < 2 ^ (Nat.log2 (num / den) + 1) := Nat.lt_log2_self
  have hnum : num < den * 2 ^ (Nat.log2 (num / den) + 1) := by
    rw [Nat.mul_comm]; exact (Nat.div_lt_iff_lt_mul hd).mp hlt
  unfold roundShift
  rcases Nat.lt_or_ge p (Nat.log2 (num / den)) with h | h
  · have hz : num / den ≠ 0 := by
      intro h0; rw [h0] at h; simp at h
    have hle : 2 ^ Nat.log2 (num / den) ≤ num / den := Nat.log2_self_le hz
    have hnum2 : den * 2 ^ Nat.log2 (num / den) ≤ num := by
      rw [Nat.mul_comm]; exact (Nat.le_div_iff_mul_le hd).mp hle
    have e : Nat.log2 (num / den) - p + p = Nat.log2 (num / den) := by omega
    refine ⟨?_, .inr ?_⟩
    · rw [Nat.mul_assoc, ← Nat.pow_add, show Nat.log2 (num / den) - p + (p + 1) = Nat.log2 (num / den) + 1 by omega]
      exact hnum
    · rw [Nat.mul_assoc, ← Nat.pow_add, e]; exact hnum2
  · have e : Nat.log2 (num / den) - p = 0 := by omega
    rw [e]
    refine ⟨?_, .inl rfl⟩
    rw [Nat.pow_zero, Nat.mul_one]
    exact lt_of_lt_of_le hnum (Nat.mul_le_mul_left den (Nat.pow_le_pow_right (by omega) (by omega)))

/-- The significand `roundCode` finds is in the range of `codeValue_scaled`. -/
theorem roundHalfEven_range {p num den : Nat} (hd : 0 < den) :
    roundHalfEven num (den * 2 ^ roundShift p num den) ≤ 2 ^ (p + 1) ∧
      (roundShift p num den = 0 ∨ 2 ^ p ≤ roundHalfEven num (den * 2 ^ roundShift p num den)) := by
  obtain ⟨h1, h2⟩ := roundShift_spec (p := p) (num := num) hd
  have hD : 0 < den * 2 ^ roundShift p num den := Nat.mul_pos hd (Nat.two_pow_pos _)
  generalize den * 2 ^ roundShift p num den = D at *
  obtain ⟨s1, s2, _⟩ := roundHalfEven_spec (num := num) hD
  constructor
  · by_contra hcon
    have : D * (2 ^ (p + 1) + 1) ≤ D * roundHalfEven num D := Nat.mul_le_mul_left D (by omega)
    rw [Nat.mul_add, Nat.mul_one] at this
    omega
  · refine h2.imp_right fun h2 => ?_
    by_contra hcon
    have : D * (roundHalfEven num D + 1) ≤ D * 2 ^ p := Nat.mul_le_mul_left D (by omega)
    rw [Nat.mul_add, Nat.mul_one] at this
    omega

/-- The magnitude that the rounded code stands for. -/
theorem codeValue_roundCode {p num den : Nat} (hd : 0 < den) :
    codeValue p (roundCode p num den) =
      roundHalfEven num (den * 2 ^ roundShift p num den) * 2 ^ roundShift p num den := by
  rw [roundCode_eq]
  exact codeValue_scaled (roundHalfEven_range hd).1 (roundHalfEven_range hd).2

@[simp] theorem roundCode_zero (p den : Nat) : roundCode p 0 den = 0 := by
  simp [roundCode, roundHalfEven, Nat.log2_zero]

end Sys2Proof
end

