-- ==== Sys2Proof/Laws/Arith.lean ====
section
/-! SUPPORT. Small facts about the binary64 operators: signs, finiteness, the magnitude of a rounded datum, and that an operand
which is not finite never gives a finite sum or product. -/

namespace Sys2Proof

namespace Binary64

@[simp] theorem isFinite_finite (s : Bool) (e : Fin 2047) (f : BitVec 52) : (finite s e f).isFinite = true := rfl
@[simp] theorem isFinite_infinite (s : Bool) : (infinite s).isFinite = false := rfl
@[simp] theorem isFinite_nan (s : Bool) (q : Fin 4503599627370495) : (nan s q).isFinite = false := rfl
@[simp] theorem isFinite_neg (x : Binary64) : x.neg.isFinite = x.isFinite := by cases x <;> rfl
@[simp] theorem isFinite_abs (x : Binary64) : x.abs.isFinite = x.isFinite := by cases x <;> rfl
@[simp] theorem neg_neg (x : Binary64) : x.neg.neg = x := by cases x <;> simp [neg]
@[simp] theorem sign_neg (x : Binary64) : x.neg.sign = !x.sign := by cases x <;> rfl
@[simp] theorem abs_neg (x : Binary64) : x.neg.abs = x.abs := by cases x <;> rfl
@[simp] theorem isFinite_someNaN (op : Arith) (a b : Binary64) : (someNaN op a b).isFinite = false := rfl
@[simp] theorem isNaN_someNaN (op : Arith) (a b : Binary64) : (someNaN op a b).isNaN = true := rfl
@[simp] theorem place_someNaN (op : Arith) (a b : Binary64) : (someNaN op a b).place = none := rfl
@[simp] theorem place_finite (s : Bool) (e : Fin 2047) (f : BitVec 52) :
    (finite s e f).place = some (signed s (mag64 e f)) := rfl
@[simp] theorem isFinite_zero : Binary64.zero.isFinite = true := rfl

/-- A finite datum, as its fields. -/
theorem isFinite_iff {x : Binary64} : x.isFinite = true ↔ ∃ s e f, x = .finite s e f := by
  cases x <;> simp

theorem isFinite_ofCode (s : Bool) (c : Nat) : (ofCode s c).isFinite = decide (c / 2 ^ 52 < 2047) := by
  unfold ofCode
  split
  · next h => exact (decide_eq_true h).symm
  · next h => exact (decide_eq_false h).symm

theorem sign_ofCode (s : Bool) (c : Nat) : (ofCode s c).sign = s := by
  unfold ofCode
  split <;> rfl

@[simp] theorem sign_round (s : Bool) (num den : Nat) : (round s num den).sign = s := sign_ofCode s _

end Binary64

/-- The fields of a finite datum made from a code hold that code. -/
theorem ofCode_of_lt {s : Bool} {c : Nat} (h : c / 2 ^ 52 < 2047) :
    Binary64.ofCode s c = .finite s ⟨c / 2 ^ 52, h⟩ (BitVec.ofNat 52 c) := dif_pos h

theorem ofCode_of_ge {s : Bool} {c : Nat} (h : 2047 ≤ c / 2 ^ 52) : Binary64.ofCode s c = .infinite s :=
  dif_neg (Nat.not_lt.mpr h)

/-- The same for binary32: below the overflow, the fields hold the code. -/
theorem Binary32.ofCode_of_lt {s : Bool} {c : Nat} (h : c / 2 ^ 23 < 255) :
    Binary32.ofCode s c = .finite s ⟨c / 2 ^ 23, h⟩ (BitVec.ofNat 23 c) := dif_pos h

theorem Binary32.ofCode_of_ge {s : Bool} {c : Nat} (h : 255 ≤ c / 2 ^ 23) : Binary32.ofCode s c = .infinite s :=
  dif_neg (Nat.not_lt.mpr h)

/-- The magnitude of the finite datum made from a code. -/
theorem mag64_ofCode {c : Nat} (h : c / 2 ^ 52 < 2047) :
    mag64 ⟨c / 2 ^ 52, h⟩ (BitVec.ofNat 52 c) = codeValue 52 c := by
  simp only [mag64, BitVec.toNat_ofNat]
  rw [Nat.div_add_mod]

/-- Every finite datum is made from its code. -/
theorem ofCode_fields (s : Bool) (e : Fin 2047) (f : BitVec 52) :
    Binary64.ofCode s (2 ^ 52 * e.val + f.toNat) = .finite s e f := by
  have hf := f.isLt
  have he := e.isLt
  have hd : (2 ^ 52 * e.val + f.toNat) / 2 ^ 52 = e.val := by omega
  rw [ofCode_of_lt (by omega)]
  congr 1
  · exact Fin.ext hd
  · apply BitVec.eq_of_toNat_eq; simp; omega

/-- A finite magnitude is below 2^1024, which is 2^2098 smallest values. -/
theorem mag64_lt (e : Fin 2047) (f : BitVec 52) : (mag64 e f : Int) < infinity64 := by
  have hb : mag64 e f < codeValue 52 (2 ^ 52 * 2047) := by
    apply codeValue_strictMono 52
    have := f.isLt
    have := e.isLt
    omega
  have hv : (codeValue 52 (2 ^ 52 * 2047) : Int) = infinity64 := by decide +kernel
  rw [← hv]
  exact_mod_cast hb

@[simp] theorem signed_neg (s : Bool) (m : Nat) : signed (!s) m = -signed s m := by
  cases s <;> simp [signed]

@[simp] theorem natAbs_signed (s : Bool) (m : Nat) : (signed s m).natAbs = m := by
  cases s <;> simp [signed]

@[simp] theorem signed_zero (s : Bool) : signed s 0 = 0 := by
  cases s <;> simp [signed]

theorem unit64_pos : 0 < unit64 := by unfold unit64; positivity

theorem unit32_pos : 0 < unit32 := by unfold unit32; positivity

namespace Binary64

/-! ### What is not finite spreads -/

theorem add_isFinite {a b : Binary64} (h : (a.add b).isFinite = true) : a.isFinite = true ∧ b.isFinite = true := by
  cases a <;> cases b <;> simp_all [add, addOr]
  all_goals (split at h <;> simp_all)

theorem sub_isFinite {a b : Binary64} (h : (a.sub b).isFinite = true) : a.isFinite = true ∧ b.isFinite = true := by
  cases a <;> cases b <;> simp_all [sub, neg, addOr]
  all_goals (split at h <;> simp_all)

theorem mul_isFinite {a b : Binary64} (h : (a.mul b).isFinite = true) : a.isFinite = true ∧ b.isFinite = true := by
  cases a <;> cases b <;> simp_all [mul, mulOr]
  all_goals (split at h <;> simp_all)

/-- A quotient by a NaN, or of a datum that is not finite, is not finite. -/
theorem div_isFinite {a b : Binary64} (h : (a.div b).isFinite = true) : a.isFinite = true ∧ b.isNaN = false := by
  cases a <;> cases b <;> simp_all [div, divOr, isNaN]

/-! ### Comparisons -/

theorem lt_irrefl (a : Binary64) : a.lt a = false := by
  unfold lt; cases a.place <;> simp

theorem le_refl {a : Binary64} (h : a.isNaN = false) : a.le a = true := by
  cases a <;> simp_all [le, place, isNaN]

/-- What lies between two finite data is finite. -/
theorem isFinite_of_between {x lo hi : Binary64} (hlo : lo.isFinite = true) (hhi : hi.isFinite = true)
    (h1 : x.ge lo = true) (h2 : x.le hi = true) : x.isFinite = true := by
  obtain ⟨sl, el, fl, rfl⟩ := isFinite_iff.mp hlo
  obtain ⟨sh, eh, fh, rfl⟩ := isFinite_iff.mp hhi
  have sb : ∀ (s : Bool) (e : Fin 2047) (f : BitVec 52), -infinity64 < signed s (mag64 e f) ∧ signed s (mag64 e f) < infinity64 := by
    intro s e f
    have := mag64_lt e f
    cases s <;> simp [signed] <;> omega
  cases x with
  | finite => rfl
  | nan => simp [ge, le, place] at h1
  | infinite s =>
    cases s
    · have := sb sh eh fh
      simp [le, place] at h2
      omega
    · have := sb sl el fl
      simp [ge, le, place] at h1
      omega

end Binary64

end Sys2Proof
end

