-- ==== Sys2Proof/Laws/Decode.lean ====
section
/-! SUPPORT. The fields of a command word read back from the word, and what a successful decoding says of the word. -/

namespace Sys2Proof

/-! ### Fields of the word -/

/-- The low half of a CMD value made from a word is the word; the high half is zero. -/
theorem cmdValue_low (w : BitVec 32) (start len : Nat) (h : start + len ≤ 32) :
    (cmdValue w).extractLsb' start len = w.extractLsb' start len := by
  apply BitVec.eq_of_getLsbD_eq
  intro i hi
  simp only [BitVec.getLsbD_extractLsb', cmdValue, BitVec.getLsbD_append]
  simp [hi, show start + i < 32 by omega]

theorem cmdValue_high (w : BitVec 32) : (cmdValue w).extractLsb' 32 32 = 0#32 := by
  apply BitVec.eq_of_getLsbD_eq
  intro i hi
  simp only [BitVec.getLsbD_extractLsb', cmdValue, BitVec.getLsbD_append]
  simp

/-- A CMD value with a zero high half is the one made from its low half. -/
theorem eq_cmdValue {v : BitVec 64} (h : v.extractLsb' 32 32 = 0#32) : v = cmdValue (v.extractLsb' 0 32) := by
  apply BitVec.eq_of_getLsbD_eq
  intro i hi
  have hb := congrArg (fun x => x.getLsbD (i - 32)) h
  simp only [cmdValue, BitVec.getLsbD_append, BitVec.getLsbD_extractLsb']
  by_cases hlt : i < 32
  · simp [hlt]
  · simp only [BitVec.getLsbD_extractLsb', show i - 32 < 32 by omega, show 32 + (i - 32) = i by omega] at hb
    simpa [hlt] using hb

/-- A word is its OP, CH and ARG fields. -/
theorem word_eq_fields (w : BitVec 32) : w = w.extractLsb' 24 8 ++ w.extractLsb' 16 8 ++ w.extractLsb' 0 16 := by
  apply BitVec.eq_of_getLsbD_eq
  intro i hi
  simp only [BitVec.getLsbD_append, BitVec.getLsbD_extractLsb']
  by_cases h1 : i < 16
  · simp [h1]
  · by_cases h2 : i - 16 < 8
    · simp [h1, h2, show 16 + (i - 16) = i by omega]
    · simp [h1, h2, show 24 + (i - 16 - 8) = i by omega, show i - 16 - 8 < 8 by omega]

theorem op_of_fields (op ch : BitVec 8) (arg : BitVec 16) : (op ++ ch ++ arg).extractLsb' 24 8 = op := by
  apply BitVec.eq_of_getLsbD_eq
  intro i hi
  simp only [BitVec.getLsbD_append, BitVec.getLsbD_extractLsb']
  simp [hi, show ¬24 + i < 16 by omega, show ¬24 + i - 16 < 8 by omega, show 24 + i - 16 - 8 = i by omega]

theorem ch_of_fields (op ch : BitVec 8) (arg : BitVec 16) : (op ++ ch ++ arg).extractLsb' 16 8 = ch := by
  apply BitVec.eq_of_getLsbD_eq
  intro i hi
  simp only [BitVec.getLsbD_append, BitVec.getLsbD_extractLsb']
  simp [hi]

theorem arg_of_fields (op ch : BitVec 8) (arg : BitVec 16) : (op ++ ch ++ arg).extractLsb' 0 16 = arg := by
  apply BitVec.eq_of_getLsbD_eq
  intro i hi
  simp only [BitVec.getLsbD_append, BitVec.getLsbD_extractLsb']
  simp [hi]

/-! ### SEL fields -/

@[simp] theorem OscSel.ofSel_field (x : OscSel) : OscSel.ofSel x.field.toNat = some x := by cases x <;> rfl

@[simp] theorem FltSel.ofSel_field (x : FltSel) : FltSel.ofSel x.field.toNat = some x := by cases x <;> rfl

theorem OscSel.field_of_ofSel : ∀ {f : BitVec 4} {x : OscSel}, OscSel.ofSel f.toNat = some x → x.field = f := by decide

theorem FltSel.field_of_ofSel : ∀ {f : BitVec 4} {x : FltSel}, FltSel.ofSel f.toNat = some x → x.field = f := by decide

/-! ### The parts of the decoder -/

/-- A field that is zero is zero bit by bit. -/
theorem getLsbD_of_extract_zero {n start len j : Nat} {x : BitVec n} (h : x.extractLsb' start len = 0#len) (hj : j < len) :
    x.getLsbD (start + j) = false := by
  have := congrArg (fun y => y.getLsbD j) h
  simpa [BitVec.getLsbD_extractLsb', hj] using this

/-- The ARG of layout B, from its fields. -/
theorem arg_build_eq {arg : BitVec 16} (h1 : arg.extractLsb' 3 5 = 0#5) (h2 : arg.extractLsb' 10 6 = 0#6) :
    0#6 ++ BitVec.ofBool (arg.getLsbD 9) ++ BitVec.ofBool (arg.getLsbD 8) ++ 0#5 ++ arg.extractLsb' 0 3 = arg := by
  have b1 := fun j (hj : j < 5) => getLsbD_of_extract_zero h1 hj
  have b2 := fun j (hj : j < 6) => getLsbD_of_extract_zero h2 hj
  apply BitVec.eq_of_getLsbD_eq
  intro i hi
  simp only [BitVec.getLsbD_append, BitVec.getLsbD_extractLsb']
  rcases (by omega : i < 3 ∨ (3 ≤ i ∧ i < 8) ∨ i = 8 ∨ i = 9 ∨ 10 ≤ i) with h | h | h | h | h
  · simp [h]
  · have := b1 (i - 3) (by omega)
    rw [show 3 + (i - 3) = i by omega] at this
    simp [this, show ¬i < 3 by omega, show i - 3 < 5 by omega]
  · subst h; simp
  · subst h; simp
  · have := b2 (i - 10) (by omega)
    rw [show 10 + (i - 10) = i by omega] at this
    simp [this, show ¬i < 3 by omega, show ¬i - 3 < 5 by omega, show ¬i - 3 - 5 < 1 by omega,
      show ¬i - 3 - 5 - 1 < 1 by omega]

theorem decodeBuild_eq_ok {ch : BitVec 8} {arg : BitVec 16} {i : Instr} (h : decodeBuild ch arg = .ok i) :
    ∃ kind interp defsize, i = .oscBuild ch kind interp defsize ∧ i.arg = arg := by
  unfold decodeBuild at h
  split at h
  · next hr =>
    injection h with h
    exact ⟨_, _, _, h.symm, by rw [← h]; exact arg_build_eq hr.1 hr.2⟩
  · simp at h

theorem decodeNoArg_eq_ok {j i : Instr} {arg : BitVec 16} (h : decodeNoArg j arg = .ok i) : i = j ∧ arg = 0#16 := by
  unfold decodeNoArg at h
  split at h
  · next hz => injection h with h; exact ⟨h.symm, hz⟩
  · simp at h

theorem arg_select_eq {arg : BitVec 16} (h : arg.extractLsb' 4 12 = 0#12) : 0#12 ++ arg.extractLsb' 0 4 = arg := by
  apply BitVec.eq_of_getLsbD_eq
  intro i hi
  simp only [BitVec.getLsbD_append, BitVec.getLsbD_extractLsb']
  by_cases hlt : i < 4
  · simp [hlt]
  · have := getLsbD_of_extract_zero h (j := i - 4) (by omega)
    rw [show 4 + (i - 4) = i by omega] at this
    simp [hlt, this]

theorem decodeSelect_eq_ok {σ : Type} {sel : Nat → Option σ} {make : σ → Instr} {arg : BitVec 16} {i : Instr}
    (h : decodeSelect sel make arg = .ok i) :
    ∃ x, sel (arg.extractLsb' 0 4).toNat = some x ∧ i = make x ∧ 0#12 ++ arg.extractLsb' 0 4 = arg := by
  unfold decodeSelect at h
  split at h
  · next hr =>
    split at h
    · next x hx => injection h with h; exact ⟨x, hx, h.symm, arg_select_eq hr⟩
    · simp at h
  · simp at h

/-- A decoding that succeeds went through the fields and the channel check. -/
theorem decode_eq_ok {p : Params} {v : BitVec 64} {i : Instr} (h : decode p v = .ok i) :
    v.extractLsb' 32 32 = 0#32 ∧ decodeFields (v.extractLsb' 24 8) (v.extractLsb' 16 8) (v.extractLsb' 0 16) = .ok i ∧
      i.wellFormed p := by
  unfold decode at h
  split at h
  · next hz =>
    split at h
    · next j hj =>
      split at h
      · next hw => injection h with h; subst h; exact ⟨hz, hj, hw⟩
      · simp at h
    · simp at h
  · simp at h

end Sys2Proof
end

