-- ==== Sys2Proof/Laws/State.lean ====
section
/-! SUPPORT. One lemma per field of State per update of it, each true by computation. -/

namespace Sys2Proof.Machine

variable (s : State)

@[simp] theorem State.setResult_params (v : BitVec 64) : (s.setResult v).params = s.params := rfl
@[simp] theorem State.setResult_operand (v : BitVec 64) : (s.setResult v).operand = s.operand := rfl
@[simp] theorem State.setResult_cmd (v : BitVec 64) : (s.setResult v).cmd = s.cmd := rfl
@[simp] theorem State.setResult_result (v : BitVec 64) : (s.setResult v).result = v := rfl
@[simp] theorem State.setResult_status (v : BitVec 64) : (s.setResult v).status = s.status := rfl
@[simp] theorem State.setResult_errinfo (v : BitVec 64) : (s.setResult v).errinfo = s.errinfo := rfl
@[simp] theorem State.setResult_sampleRate (v : BitVec 64) : (s.setResult v).sampleRate = s.sampleRate := rfl
@[simp] theorem State.setResult_oscs (v : BitVec 64) : (s.setResult v).oscs = s.oscs := rfl
@[simp] theorem State.setResult_flts (v : BitVec 64) : (s.setResult v).flts = s.flts := rfl
@[simp] theorem State.setResult_pending (v : BitVec 64) : (s.setResult v).pending = s.pending := rfl
@[simp] theorem State.setResult_readData (v : BitVec 64) : (s.setResult v).readData = s.readData := rfl

@[simp] theorem State.setCmd_params (v : BitVec 64) : (s.setCmd v).params = s.params := rfl
@[simp] theorem State.setCmd_operand (v : BitVec 64) : (s.setCmd v).operand = s.operand := rfl
@[simp] theorem State.setCmd_cmd (v : BitVec 64) : (s.setCmd v).cmd = v := rfl
@[simp] theorem State.setCmd_result (v : BitVec 64) : (s.setCmd v).result = s.result := rfl
@[simp] theorem State.setCmd_status (v : BitVec 64) : (s.setCmd v).status = s.status := rfl
@[simp] theorem State.setCmd_errinfo (v : BitVec 64) : (s.setCmd v).errinfo = s.errinfo := rfl
@[simp] theorem State.setCmd_sampleRate (v : BitVec 64) : (s.setCmd v).sampleRate = s.sampleRate := rfl
@[simp] theorem State.setCmd_oscs (v : BitVec 64) : (s.setCmd v).oscs = s.oscs := rfl
@[simp] theorem State.setCmd_flts (v : BitVec 64) : (s.setCmd v).flts = s.flts := rfl
@[simp] theorem State.setCmd_pending (v : BitVec 64) : (s.setCmd v).pending = s.pending := rfl
@[simp] theorem State.setCmd_readData (v : BitVec 64) : (s.setCmd v).readData = s.readData := rfl

@[simp] theorem State.setOperand_params (v : BitVec 64) : (s.setOperand v).params = s.params := rfl
@[simp] theorem State.setOperand_operand (v : BitVec 64) : (s.setOperand v).operand = v := rfl
@[simp] theorem State.setOperand_cmd (v : BitVec 64) : (s.setOperand v).cmd = s.cmd := rfl
@[simp] theorem State.setOperand_result (v : BitVec 64) : (s.setOperand v).result = s.result := rfl
@[simp] theorem State.setOperand_status (v : BitVec 64) : (s.setOperand v).status = s.status := rfl
@[simp] theorem State.setOperand_errinfo (v : BitVec 64) : (s.setOperand v).errinfo = s.errinfo := rfl
@[simp] theorem State.setOperand_sampleRate (v : BitVec 64) : (s.setOperand v).sampleRate = s.sampleRate := rfl
@[simp] theorem State.setOperand_oscs (v : BitVec 64) : (s.setOperand v).oscs = s.oscs := rfl
@[simp] theorem State.setOperand_flts (v : BitVec 64) : (s.setOperand v).flts = s.flts := rfl
@[simp] theorem State.setOperand_pending (v : BitVec 64) : (s.setOperand v).pending = s.pending := rfl
@[simp] theorem State.setOperand_readData (v : BitVec 64) : (s.setOperand v).readData = s.readData := rfl

@[simp] theorem State.setRate_params (v : BitVec 32) : (s.setRate v).params = s.params := rfl
@[simp] theorem State.setRate_operand (v : BitVec 32) : (s.setRate v).operand = s.operand := rfl
@[simp] theorem State.setRate_cmd (v : BitVec 32) : (s.setRate v).cmd = s.cmd := rfl
@[simp] theorem State.setRate_result (v : BitVec 32) : (s.setRate v).result = s.result := rfl
@[simp] theorem State.setRate_status (v : BitVec 32) : (s.setRate v).status = s.status := rfl
@[simp] theorem State.setRate_errinfo (v : BitVec 32) : (s.setRate v).errinfo = s.errinfo := rfl
@[simp] theorem State.setRate_sampleRate (v : BitVec 32) : (s.setRate v).sampleRate = v := rfl
@[simp] theorem State.setRate_oscs (v : BitVec 32) : (s.setRate v).oscs = s.oscs := rfl
@[simp] theorem State.setRate_flts (v : BitVec 32) : (s.setRate v).flts = s.flts := rfl
@[simp] theorem State.setRate_pending (v : BitVec 32) : (s.setRate v).pending = s.pending := rfl
@[simp] theorem State.setRate_readData (v : BitVec 32) : (s.setRate v).readData = s.readData := rfl

@[simp] theorem State.setStatus_params (v : BitVec 64) : (s.setStatus v).params = s.params := rfl
@[simp] theorem State.setStatus_operand (v : BitVec 64) : (s.setStatus v).operand = s.operand := rfl
@[simp] theorem State.setStatus_cmd (v : BitVec 64) : (s.setStatus v).cmd = s.cmd := rfl
@[simp] theorem State.setStatus_result (v : BitVec 64) : (s.setStatus v).result = s.result := rfl
@[simp] theorem State.setStatus_status (v : BitVec 64) : (s.setStatus v).status = v := rfl
@[simp] theorem State.setStatus_errinfo (v : BitVec 64) : (s.setStatus v).errinfo = s.errinfo := rfl
@[simp] theorem State.setStatus_sampleRate (v : BitVec 64) : (s.setStatus v).sampleRate = s.sampleRate := rfl
@[simp] theorem State.setStatus_oscs (v : BitVec 64) : (s.setStatus v).oscs = s.oscs := rfl
@[simp] theorem State.setStatus_flts (v : BitVec 64) : (s.setStatus v).flts = s.flts := rfl
@[simp] theorem State.setStatus_pending (v : BitVec 64) : (s.setStatus v).pending = s.pending := rfl
@[simp] theorem State.setStatus_readData (v : BitVec 64) : (s.setStatus v).readData = s.readData := rfl

@[simp] theorem State.setErrinfo_params (v : BitVec 64) : (s.setErrinfo v).params = s.params := rfl
@[simp] theorem State.setErrinfo_operand (v : BitVec 64) : (s.setErrinfo v).operand = s.operand := rfl
@[simp] theorem State.setErrinfo_cmd (v : BitVec 64) : (s.setErrinfo v).cmd = s.cmd := rfl
@[simp] theorem State.setErrinfo_result (v : BitVec 64) : (s.setErrinfo v).result = s.result := rfl
@[simp] theorem State.setErrinfo_status (v : BitVec 64) : (s.setErrinfo v).status = s.status := rfl
@[simp] theorem State.setErrinfo_errinfo (v : BitVec 64) : (s.setErrinfo v).errinfo = v := rfl
@[simp] theorem State.setErrinfo_sampleRate (v : BitVec 64) : (s.setErrinfo v).sampleRate = s.sampleRate := rfl
@[simp] theorem State.setErrinfo_oscs (v : BitVec 64) : (s.setErrinfo v).oscs = s.oscs := rfl
@[simp] theorem State.setErrinfo_flts (v : BitVec 64) : (s.setErrinfo v).flts = s.flts := rfl
@[simp] theorem State.setErrinfo_pending (v : BitVec 64) : (s.setErrinfo v).pending = s.pending := rfl
@[simp] theorem State.setErrinfo_readData (v : BitVec 64) : (s.setErrinfo v).readData = s.readData := rfl

@[simp] theorem State.setReadData_params (v : Option (BitVec 64)) : (s.setReadData v).params = s.params := rfl
@[simp] theorem State.setReadData_operand (v : Option (BitVec 64)) : (s.setReadData v).operand = s.operand := rfl
@[simp] theorem State.setReadData_cmd (v : Option (BitVec 64)) : (s.setReadData v).cmd = s.cmd := rfl
@[simp] theorem State.setReadData_result (v : Option (BitVec 64)) : (s.setReadData v).result = s.result := rfl
@[simp] theorem State.setReadData_status (v : Option (BitVec 64)) : (s.setReadData v).status = s.status := rfl
@[simp] theorem State.setReadData_errinfo (v : Option (BitVec 64)) : (s.setReadData v).errinfo = s.errinfo := rfl
@[simp] theorem State.setReadData_sampleRate (v : Option (BitVec 64)) : (s.setReadData v).sampleRate = s.sampleRate := rfl
@[simp] theorem State.setReadData_oscs (v : Option (BitVec 64)) : (s.setReadData v).oscs = s.oscs := rfl
@[simp] theorem State.setReadData_flts (v : Option (BitVec 64)) : (s.setReadData v).flts = s.flts := rfl
@[simp] theorem State.setReadData_pending (v : Option (BitVec 64)) : (s.setReadData v).pending = s.pending := rfl
@[simp] theorem State.setReadData_readData (v : Option (BitVec 64)) : (s.setReadData v).readData = v := rfl

@[simp] theorem State.setPending_params (v : List BusEvent) : (s.setPending v).params = s.params := rfl
@[simp] theorem State.setPending_operand (v : List BusEvent) : (s.setPending v).operand = s.operand := rfl
@[simp] theorem State.setPending_cmd (v : List BusEvent) : (s.setPending v).cmd = s.cmd := rfl
@[simp] theorem State.setPending_result (v : List BusEvent) : (s.setPending v).result = s.result := rfl
@[simp] theorem State.setPending_status (v : List BusEvent) : (s.setPending v).status = s.status := rfl
@[simp] theorem State.setPending_errinfo (v : List BusEvent) : (s.setPending v).errinfo = s.errinfo := rfl
@[simp] theorem State.setPending_sampleRate (v : List BusEvent) : (s.setPending v).sampleRate = s.sampleRate := rfl
@[simp] theorem State.setPending_oscs (v : List BusEvent) : (s.setPending v).oscs = s.oscs := rfl
@[simp] theorem State.setPending_flts (v : List BusEvent) : (s.setPending v).flts = s.flts := rfl
@[simp] theorem State.setPending_pending (v : List BusEvent) : (s.setPending v).pending = v := rfl
@[simp] theorem State.setPending_readData (v : List BusEvent) : (s.setPending v).readData = s.readData := rfl

@[simp] theorem State.setOsc_params (c : Nat) (o : OscChannel) : (s.setOsc c o).params = s.params := rfl
@[simp] theorem State.setOsc_operand (c : Nat) (o : OscChannel) : (s.setOsc c o).operand = s.operand := rfl
@[simp] theorem State.setOsc_cmd (c : Nat) (o : OscChannel) : (s.setOsc c o).cmd = s.cmd := rfl
@[simp] theorem State.setOsc_result (c : Nat) (o : OscChannel) : (s.setOsc c o).result = s.result := rfl
@[simp] theorem State.setOsc_status (c : Nat) (o : OscChannel) : (s.setOsc c o).status = s.status := rfl
@[simp] theorem State.setOsc_errinfo (c : Nat) (o : OscChannel) : (s.setOsc c o).errinfo = s.errinfo := rfl
@[simp] theorem State.setOsc_sampleRate (c : Nat) (o : OscChannel) : (s.setOsc c o).sampleRate = s.sampleRate := rfl
@[simp] theorem State.setOsc_oscs (c : Nat) (o : OscChannel) : (s.setOsc c o).oscs = s.oscs.set c o := rfl
@[simp] theorem State.setOsc_flts (c : Nat) (o : OscChannel) : (s.setOsc c o).flts = s.flts := rfl
@[simp] theorem State.setOsc_pending (c : Nat) (o : OscChannel) : (s.setOsc c o).pending = s.pending := rfl
@[simp] theorem State.setOsc_readData (c : Nat) (o : OscChannel) : (s.setOsc c o).readData = s.readData := rfl

@[simp] theorem State.setFlt_params (f : Nat) (x : FltChannel) : (s.setFlt f x).params = s.params := rfl
@[simp] theorem State.setFlt_operand (f : Nat) (x : FltChannel) : (s.setFlt f x).operand = s.operand := rfl
@[simp] theorem State.setFlt_cmd (f : Nat) (x : FltChannel) : (s.setFlt f x).cmd = s.cmd := rfl
@[simp] theorem State.setFlt_result (f : Nat) (x : FltChannel) : (s.setFlt f x).result = s.result := rfl
@[simp] theorem State.setFlt_status (f : Nat) (x : FltChannel) : (s.setFlt f x).status = s.status := rfl
@[simp] theorem State.setFlt_errinfo (f : Nat) (x : FltChannel) : (s.setFlt f x).errinfo = s.errinfo := rfl
@[simp] theorem State.setFlt_sampleRate (f : Nat) (x : FltChannel) : (s.setFlt f x).sampleRate = s.sampleRate := rfl
@[simp] theorem State.setFlt_oscs (f : Nat) (x : FltChannel) : (s.setFlt f x).oscs = s.oscs := rfl
@[simp] theorem State.setFlt_flts (f : Nat) (x : FltChannel) : (s.setFlt f x).flts = s.flts.set f x := rfl
@[simp] theorem State.setFlt_pending (f : Nat) (x : FltChannel) : (s.setFlt f x).pending = s.pending := rfl
@[simp] theorem State.setFlt_readData (f : Nat) (x : FltChannel) : (s.setFlt f x).readData = s.readData := rfl

end Sys2Proof.Machine
end

