-- ==== Sys2Proof/Laws/Memory.lean ====
section
/-! SUPPORT. Table memory: every write keeps the canonical form, and a read after a write gives what was written. -/

namespace Sys2Proof.Machine

open Sys2Proof

@[simp] theorem Memory.wf_nil : Memory.wf [] = true := rfl

@[simp] theorem Memory.read_nil (i : Nat) : Memory.read [] i = none := rfl

/-- The head of a canonical memory is below whatever follows it. -/
theorem Memory.wf_cons {i : Nat} {w : Binary32} {m : Memory} :
    Memory.wf ((i, w) :: m) = true ↔ (∀ x ∈ m.head?, i < x.1) ∧ Memory.wf m = true := by
  cases m with
  | nil => simp [Memory.wf]
  | cons x rest => simp [Memory.wf]

/-- A write puts first either its own index or the old first one. -/
theorem Memory.head_write (m : Memory) (i : Nat) (w : Binary32) :
    ∀ x ∈ (m.write i w).head?, x.1 = i ∨ ∃ y ∈ m.head?, x.1 = y.1 := by
  cases m with
  | nil => simp [Memory.write]
  | cons y rest =>
    obtain ⟨j, v⟩ := y
    intro x hx
    simp only [Memory.write] at hx
    split at hx
    · exact .inl (by simp at hx; rw [← hx])
    · split at hx
      · exact .inl (by simp at hx; rw [← hx])
      · exact .inr ⟨(j, v), by simp, by simp at hx; rw [← hx]⟩

theorem Memory.wf_write {m : Memory} (h : m.wf = true) (i : Nat) (w : Binary32) : (m.write i w).wf = true := by
  induction m with
  | nil => rfl
  | cons x rest ih =>
    obtain ⟨j, v⟩ := x
    simp only [Memory.write]
    have hr := Memory.wf_cons.mp h
    split
    · next hij => exact Memory.wf_cons.mpr ⟨by simpa using hij, h⟩
    · split
      · next hij => exact hij ▸ Memory.wf_cons.mpr hr
      · refine Memory.wf_cons.mpr ⟨fun y hy => ?_, ih hr.2⟩
        rcases Memory.head_write rest i w y hy with hyi | ⟨z, hz, hyz⟩
        · omega
        · exact hyz ▸ hr.1 z hz

theorem Memory.wf_fill (entry : Nat → Binary32) (k : Nat) {m : Memory} (h : m.wf = true) :
    (Memory.fill entry k m).wf = true := by
  induction k generalizing m with
  | zero => exact h
  | succ k ih => exact ih (Memory.wf_write h k (entry k))

theorem Memory.read_of_lt_head {m : Memory} (h : m.wf = true) {i : Nat} (hi : ∀ x ∈ m.head?, i < x.1) :
    m.read i = none := by
  induction m with
  | nil => rfl
  | cons x rest ih =>
    obtain ⟨j, v⟩ := x
    have hij : i < j := hi (j, v) (by simp)
    have hr := Memory.wf_cons.mp h
    simp only [Memory.read]
    rw [if_neg (by omega)]
    exact ih hr.2 fun y hy => lt_trans hij (hr.1 y hy)

theorem Memory.read_write (m : Memory) (i j : Nat) (w : Binary32) :
    (m.write i w).read j = if j = i then some w else m.read j := by
  induction m with
  | nil => simp [Memory.write, Memory.read, eq_comm]
  | cons x rest ih =>
    obtain ⟨k, v⟩ := x
    simp only [Memory.write]
    split
    · simp [Memory.read, eq_comm]
    · split
      · next h1 h2 =>
        subst h2
        rcases eq_or_ne i j with hj | hj
        · simp [Memory.read, hj]
        · simp [Memory.read, hj, hj.symm]
      · next h1 h2 =>
        simp only [Memory.read, ih]
        by_cases hk : k = j
        · rw [if_pos hk, if_neg (by omega), if_pos hk]
        · simp [hk]

theorem Memory.read_fill (entry : Nat → Binary32) (k i : Nat) (m : Memory) :
    (Memory.fill entry k m).read i = if i < k then some (entry i) else m.read i := by
  induction k generalizing m with
  | zero => simp [Memory.fill]
  | succ k ih =>
    simp only [Memory.fill, ih, Memory.read_write]
    by_cases h1 : i < k
    · simp [h1, Nat.lt_succ_of_lt h1]
    · by_cases h2 : i = k
      · simp [h2]
      · rw [if_neg h1, if_neg h2, if_neg (by omega)]

end Sys2Proof.Machine
end

