-- ==== Sys2Proof/Laws/Ops.lean ====
section
/-! SUPPORT. What the shared operations of Machine/Ops.lean do: an error changes STATUS, ERRINFO and, when raised, RESULT, and
nothing else; a channel reads back as written; a command on a channel that exists acts on it. -/

namespace Sys2Proof.Machine

open Sys2Proof

variable (s : State)

/-! ### Errors -/

@[simp] theorem State.recordError_params (c : Cause) (info : BitVec 32) (regacc write : Bool) :
    (s.recordError c info regacc write).params = s.params := rfl
@[simp] theorem State.recordError_operand (c : Cause) (info : BitVec 32) (regacc write : Bool) :
    (s.recordError c info regacc write).operand = s.operand := rfl
@[simp] theorem State.recordError_cmd (c : Cause) (info : BitVec 32) (regacc write : Bool) :
    (s.recordError c info regacc write).cmd = s.cmd := rfl
@[simp] theorem State.recordError_result (c : Cause) (info : BitVec 32) (regacc write : Bool) :
    (s.recordError c info regacc write).result = s.result := rfl
@[simp] theorem State.recordError_status (c : Cause) (info : BitVec 32) (regacc write : Bool) :
    (s.recordError c info regacc write).status = statusAfterError c s.status := rfl
@[simp] theorem State.recordError_errinfo (c : Cause) (info : BitVec 32) (regacc write : Bool) :
    (s.recordError c info regacc write).errinfo = errinfoAfterError (errinfoWord c info regacc write) s.status s.errinfo := rfl
@[simp] theorem State.recordError_sampleRate (c : Cause) (info : BitVec 32) (regacc write : Bool) :
    (s.recordError c info regacc write).sampleRate = s.sampleRate := rfl
@[simp] theorem State.recordError_oscs (c : Cause) (info : BitVec 32) (regacc write : Bool) :
    (s.recordError c info regacc write).oscs = s.oscs := rfl
@[simp] theorem State.recordError_flts (c : Cause) (info : BitVec 32) (regacc write : Bool) :
    (s.recordError c info regacc write).flts = s.flts := rfl
@[simp] theorem State.recordError_pending (c : Cause) (info : BitVec 32) (regacc write : Bool) :
    (s.recordError c info regacc write).pending = s.pending := rfl
@[simp] theorem State.recordError_readData (c : Cause) (info : BitVec 32) (regacc write : Bool) :
    (s.recordError c info regacc write).readData = s.readData := rfl

@[simp] theorem State.raiseError_params (c : Cause) : (s.raiseError c).params = s.params := rfl
@[simp] theorem State.raiseError_operand (c : Cause) : (s.raiseError c).operand = s.operand := rfl
@[simp] theorem State.raiseError_cmd (c : Cause) : (s.raiseError c).cmd = s.cmd := rfl
@[simp] theorem State.raiseError_result (c : Cause) : (s.raiseError c).result = 0#64 := rfl
@[simp] theorem State.raiseError_status (c : Cause) : (s.raiseError c).status = statusAfterError c s.status := rfl
@[simp] theorem State.raiseError_errinfo (c : Cause) : (s.raiseError c).errinfo = errinfoAfterError (errinfoWord c s.commandWord false false) s.status s.errinfo := rfl
@[simp] theorem State.raiseError_sampleRate (c : Cause) : (s.raiseError c).sampleRate = s.sampleRate := rfl
@[simp] theorem State.raiseError_oscs (c : Cause) : (s.raiseError c).oscs = s.oscs := rfl
@[simp] theorem State.raiseError_flts (c : Cause) : (s.raiseError c).flts = s.flts := rfl
@[simp] theorem State.raiseError_pending (c : Cause) : (s.raiseError c).pending = s.pending := rfl
@[simp] theorem State.raiseError_readData (c : Cause) : (s.raiseError c).readData = s.readData := rfl

/-! ### Channels -/

theorem State.osc_eq {s : State} {c : Nat} {o : OscChannel} (h : s.oscs[c]? = some o) : s.osc c = o := by
  simp [State.osc, h]

theorem State.flt_eq {s : State} {f : Nat} {x : FltChannel} (h : s.flts[f]? = some x) : s.flt f = x := by
  simp [State.flt, h]

/-- A channel the block holds is one of its channels. -/
theorem State.osc_mem {s : State} {c : Nat} (h : c < s.oscs.length) : s.osc c ∈ s.oscs := by
  simp [State.osc, List.getElem?_eq_getElem h]

theorem State.flt_mem {s : State} {f : Nat} (h : f < s.flts.length) : s.flt f ∈ s.flts := by
  simp [State.flt, List.getElem?_eq_getElem h]

theorem State.onOsc_of_lt {s : State} {ch : BitVec 8} (h : ch.toNat < s.params.numOsc)
    (act : State → Nat → OscChannel → State) : s.onOsc ch act = act s ch.toNat (s.osc ch.toNat) := if_pos h

theorem State.onOsc_of_ge {s : State} {ch : BitVec 8} (h : s.params.numOsc ≤ ch.toNat)
    (act : State → Nat → OscChannel → State) : s.onOsc ch act = s.raiseError .illegal := if_neg (Nat.not_lt.mpr h)

theorem State.onFlt_of_lt {s : State} {ch : BitVec 8} (h : ch.toNat < s.params.numFlt)
    (act : State → Nat → FltChannel → State) : s.onFlt ch act = act s ch.toNat (s.flt ch.toNat) := if_pos h

theorem State.onFlt_of_ge {s : State} {ch : BitVec 8} (h : s.params.numFlt ≤ ch.toNat)
    (act : State → Nat → FltChannel → State) : s.onFlt ch act = s.raiseError .illegal := if_neg (Nat.not_lt.mpr h)

/-- Whatever holds of every old channel and of the new one holds of every channel after a write. -/
theorem List.forall_mem_set {α : Type} {P : α → Prop} {l : List α} {n : Nat} {a : α} (hl : ∀ x ∈ l, P x) (ha : P a) :
    ∀ x ∈ l.set n a, P x := fun x hx => by
  rcases List.mem_or_eq_of_mem_set hx with h | h
  · exact hl x h
  · exact h ▸ ha

/-- A table entry that has been written reads as written. -/
theorem State.tableRead_of_some {s : State} {c i : Nat} {w : Binary32} (h : (s.osc c).table.read i = some w) :
    s.tableRead c i = w := by
  simp [State.tableRead, h]

end Sys2Proof.Machine
end

