-- ==== Sys2Proof/Laws/Exec.lean ====
section
/-! SUPPORT. Everything each command can do, one lemma per command, and everything one step can do. Later proofs cite these and
never unfold a meaning. -/

namespace Sys2Proof.Machine

open Sys2Proof

theorem next_inj {s t : State} (h : (Host.Outcome.next s : Host.Outcome State Fault Refusal) = .next t) : t = s := by
  injection h with h; exact h.symm

/-- Every command answers a next state. -/
theorem exec_next (i : Instr) (s : State) : ∃ t, exec i s = .next t := by
  cases i <;> exact ⟨_, rfl⟩

/-! ### Oscillator commands -/

theorem execOscBuild_cases {ch : BitVec 8} {kind : BitVec 3} {interp defsize : Bool} {s t : State}
    (h : exec (.oscBuild ch kind interp defsize) s = .next t) :
    (s.params.numOsc ≤ ch.toNat ∧ t = s.raiseError .illegal) ∨ t = s.raiseError .cfg ∨
      ∃ w, ch.toNat < s.params.numOsc ∧ (s.osc ch.toNat).built = false ∧ Waveform.ofKind kind = some w ∧
        1 ≤ s.buildSize defsize ∧ s.buildSize defsize ≤ s.params.maxN ∧
        t = (s.setOsc ch.toNat ((s.osc ch.toNat).build w interp (s.buildSize defsize) s.rate)).setResult 0#64 := by
  have h := next_inj h
  rcases Nat.lt_or_ge ch.toNat s.params.numOsc with hc | hc
  · rw [State.onOsc_of_lt hc] at h
    cases hb : (s.osc ch.toNat).built
    · cases hw : Waveform.ofKind kind with
      | none => simp [hb, hw] at h; exact .inr (.inl h)
      | some w =>
        by_cases hn : s.buildSize defsize = 0 ∨ s.params.maxN < s.buildSize defsize
        · simp [hb, hw, hn] at h; exact .inr (.inl h)
        · simp [hb, hw, hn] at h
          exact .inr (.inr ⟨w, hc, rfl, rfl, by omega, by omega, h⟩)
    · simp [hb] at h; exact .inr (.inl h)
  · exact .inl ⟨hc, by rw [State.onOsc_of_ge hc] at h; exact h⟩

theorem execOscPlay_cases {ch : BitVec 8} {s t : State} (h : exec (.oscPlay ch) s = .next t) :
    (s.params.numOsc ≤ ch.toNat ∧ t = s.raiseError .illegal) ∨
      ((s.osc ch.toNat).built = false ∧ t = s.raiseError .unbuilt) ∨
      ((s.osc ch.toNat).accepts ((s.osc ch.toNat).advance s.operandF64) = false ∧ t = s.raiseError .range) ∨
      (ch.toNat < s.params.numOsc ∧ (s.osc ch.toNat).built = true ∧
        (s.osc ch.toNat).accepts ((s.osc ch.toNat).advance s.operandF64) = true ∧
        t = (s.setOsc ch.toNat { s.osc ch.toNat with phase := (s.osc ch.toNat).advance s.operandF64 }).setResult
          (playSample s ch.toNat (s.osc ch.toNat) ((s.osc ch.toNat).advance s.operandF64)).toBits) := by
  have h := next_inj h
  rcases Nat.lt_or_ge ch.toNat s.params.numOsc with hc | hc
  · rw [State.onOsc_of_lt hc] at h
    by_cases hb : (s.osc ch.toNat).built = true
    · rw [if_pos hb] at h
      by_cases ha : (s.osc ch.toNat).accepts ((s.osc ch.toNat).advance s.operandF64) = true
      · rw [if_pos ha] at h; exact .inr (.inr (.inr ⟨hc, hb, ha, h⟩))
      · rw [if_neg ha] at h; exact .inr (.inr (.inl ⟨by simpa using ha, h⟩))
    · rw [if_neg hb] at h; exact .inr (.inl ⟨by simpa using hb, h⟩)
  · exact .inl ⟨hc, by rw [State.onOsc_of_ge hc] at h; exact h⟩

theorem execOscRead_cases {ch : BitVec 8} {sel : OscSel} {s t : State} (h : exec (.oscRead ch sel) s = .next t) :
    (∃ c, t = s.raiseError c) ∨ ∃ v, t = s.setResult v := by
  have h := next_inj h
  rcases Nat.lt_or_ge ch.toNat s.params.numOsc with hc | hc
  · rw [State.onOsc_of_lt hc] at h
    cases sel <;> simp only at h <;> repeat' split at h
    all_goals first
      | exact .inl ⟨_, h⟩
      | exact .inr ⟨_, h⟩
  · exact .inl ⟨_, by rw [State.onOsc_of_ge hc] at h; exact h⟩

/-! ### Filter commands -/

theorem execFltSetQ_cases {ch : BitVec 8} {s t : State} (h : exec (.fltSetQ ch) s = .next t) :
    (s.params.numFlt ≤ ch.toNat ∧ t = s.raiseError .illegal) ∨
      (ch.toNat < s.params.numFlt ∧ ∃ k amp, t = (s.setFlt ch.toNat { s.flt ch.toNat with k := k, amp := amp }).setResult 0#64) := by
  have h := next_inj h
  rcases Nat.lt_or_ge ch.toNat s.params.numFlt with hc | hc
  · exact .inr ⟨hc, _, _, by rw [State.onFlt_of_lt hc] at h; exact h⟩
  · exact .inl ⟨hc, by rw [State.onFlt_of_ge hc] at h; exact h⟩

theorem execFltSetHpf_cases {ch : BitVec 8} {s t : State} (h : exec (.fltSetHpf ch) s = .next t) :
    (s.params.numFlt ≤ ch.toNat ∧ t = s.raiseError .illegal) ∨
      (ch.toNat < s.params.numFlt ∧ ∃ ah bh, t = (s.setFlt ch.toNat { s.flt ch.toNat with ah := ah, bh := bh }).setResult 0#64) := by
  have h := next_inj h
  rcases Nat.lt_or_ge ch.toNat s.params.numFlt with hc | hc
  · exact .inr ⟨hc, _, _, by rw [State.onFlt_of_lt hc] at h; exact h⟩
  · exact .inl ⟨hc, by rw [State.onFlt_of_ge hc] at h; exact h⟩

theorem execFltSetFc_cases {ch : BitVec 8} {s t : State} (h : exec (.fltSetFc ch) s = .next t) :
    (s.params.numFlt ≤ ch.toNat ∧ t = s.raiseError .illegal) ∨
      (ch.toNat < s.params.numFlt ∧
        t = (s.setFlt ch.toNat { s.flt ch.toNat with fc := clampFc (s.operandF64.mul s.operandF64) }).setResult 0#64) := by
  have h := next_inj h
  rcases Nat.lt_or_ge ch.toNat s.params.numFlt with hc | hc
  · exact .inr ⟨hc, by rw [State.onFlt_of_lt hc] at h; exact h⟩
  · exact .inl ⟨hc, by rw [State.onFlt_of_ge hc] at h; exact h⟩

theorem execFltReset_cases {ch : BitVec 8} {s t : State} (h : exec (.fltReset ch) s = .next t) :
    (s.params.numFlt ≤ ch.toNat ∧ t = s.raiseError .illegal) ∨ t = s.setResult 0#64 ∨
      (ch.toNat < s.params.numFlt ∧ t = (s.setFlt ch.toNat { s.flt ch.toNat with z := .zero }).setResult 0#64) := by
  have h := next_inj h
  rcases Nat.lt_or_ge ch.toNat s.params.numFlt with hc | hc
  · rw [State.onFlt_of_lt hc] at h
    cases hk : (s.flt ch.toNat).k.lt .seventeen
    · simp [hk] at h; exact .inr (.inl h)
    · simp [hk] at h; exact .inr (.inr ⟨hc, h⟩)
  · exact .inl ⟨hc, by rw [State.onFlt_of_ge hc] at h; exact h⟩

theorem execFltRun_cases {ch : BitVec 8} {s t : State} (h : exec (.fltRun ch) s = .next t) :
    (s.params.numFlt ≤ ch.toNat ∧ t = s.raiseError .illegal) ∨
      (ch.toNat < s.params.numFlt ∧ ((s.flt ch.toNat).run s.operandF64).isFinite = true ∧
        t = (s.setFlt ch.toNat { s.flt ch.toNat with z := ((s.flt ch.toNat).run s.operandF64).z }).setResult
          ((s.flt ch.toNat).run s.operandF64).out.toBits) ∨
      (ch.toNat < s.params.numFlt ∧ ((s.flt ch.toNat).run s.operandF64).isFinite = false ∧
        t = ((s.setFlt ch.toNat { s.flt ch.toNat with z := .zero }).recordCommandError .nonfinite).setResult
          Binary64.zero.toBits) := by
  have h := next_inj h
  rcases Nat.lt_or_ge ch.toNat s.params.numFlt with hc | hc
  · rw [State.onFlt_of_lt hc] at h
    cases hk : ((s.flt ch.toNat).run s.operandF64).isFinite
    · simp [hk] at h; exact .inr (.inr ⟨hc, rfl, h⟩)
    · simp [hk] at h; exact .inr (.inl ⟨hc, rfl, h⟩)
  · exact .inl ⟨hc, by rw [State.onFlt_of_ge hc] at h; exact h⟩

theorem execFltRead_cases {ch : BitVec 8} {sel : FltSel} {s t : State} (h : exec (.fltRead ch sel) s = .next t) :
    (s.params.numFlt ≤ ch.toNat ∧ t = s.raiseError .illegal) ∨
      (ch.toNat < s.params.numFlt ∧ t = s.setResult ((s.flt ch.toNat).element sel).toBits) := by
  have h := next_inj h
  rcases Nat.lt_or_ge ch.toNat s.params.numFlt with hc | hc
  · exact .inr ⟨hc, by rw [State.onFlt_of_lt hc] at h; exact h⟩
  · exact .inl ⟨hc, by rw [State.onFlt_of_ge hc] at h; exact h⟩

/-! ### What a command cannot touch -/

/-- No command changes the parameters, OPERAND, CMD, SAMPLE_RATE or the host's side. -/
theorem exec_unchanged {i : Instr} {s t : State} (h : exec i s = .next t) :
    t.params = s.params ∧ t.operand = s.operand ∧ t.cmd = s.cmd ∧ t.sampleRate = s.sampleRate ∧ t.pending = s.pending ∧
      t.readData = s.readData := by
  cases i
  · obtain ⟨_, rfl⟩ | rfl | ⟨_, _, _, _, _, _, rfl⟩ := execOscBuild_cases h <;> exact ⟨rfl, rfl, rfl, rfl, rfl, rfl⟩
  · obtain ⟨_, rfl⟩ | ⟨_, rfl⟩ | ⟨_, rfl⟩ | ⟨_, _, _, rfl⟩ := execOscPlay_cases h <;> exact ⟨rfl, rfl, rfl, rfl, rfl, rfl⟩
  · obtain ⟨_, rfl⟩ | ⟨_, rfl⟩ := execOscRead_cases h <;> exact ⟨rfl, rfl, rfl, rfl, rfl, rfl⟩
  · obtain ⟨_, rfl⟩ | ⟨_, _, _, rfl⟩ := execFltSetQ_cases h <;> exact ⟨rfl, rfl, rfl, rfl, rfl, rfl⟩
  · obtain ⟨_, rfl⟩ | ⟨_, _, _, rfl⟩ := execFltSetHpf_cases h <;> exact ⟨rfl, rfl, rfl, rfl, rfl, rfl⟩
  · obtain ⟨_, rfl⟩ | ⟨_, rfl⟩ := execFltSetFc_cases h <;> exact ⟨rfl, rfl, rfl, rfl, rfl, rfl⟩
  · obtain ⟨_, rfl⟩ | rfl | ⟨_, rfl⟩ := execFltReset_cases h <;> exact ⟨rfl, rfl, rfl, rfl, rfl, rfl⟩
  · obtain ⟨_, rfl⟩ | ⟨_, _, rfl⟩ | ⟨_, _, rfl⟩ := execFltRun_cases h <;> exact ⟨rfl, rfl, rfl, rfl, rfl, rfl⟩
  · obtain ⟨_, rfl⟩ | ⟨_, rfl⟩ := execFltRead_cases h <;> exact ⟨rfl, rfl, rfl, rfl, rfl, rfl⟩

/-- A filter command changes no oscillator channel. -/
theorem exec_flt_oscs {i : Instr} {s t : State} (hu : i.unit = .flt) (h : exec i s = .next t) : t.oscs = s.oscs := by
  cases i <;> simp [Instr.unit] at hu
  · obtain ⟨_, rfl⟩ | ⟨_, _, _, rfl⟩ := execFltSetQ_cases h <;> rfl
  · obtain ⟨_, rfl⟩ | ⟨_, _, _, rfl⟩ := execFltSetHpf_cases h <;> rfl
  · obtain ⟨_, rfl⟩ | ⟨_, rfl⟩ := execFltSetFc_cases h <;> rfl
  · obtain ⟨_, rfl⟩ | rfl | ⟨_, rfl⟩ := execFltReset_cases h <;> rfl
  · obtain ⟨_, rfl⟩ | ⟨_, _, rfl⟩ | ⟨_, _, rfl⟩ := execFltRun_cases h <;> rfl
  · obtain ⟨_, rfl⟩ | ⟨_, rfl⟩ := execFltRead_cases h <;> rfl

/-- An oscillator command changes no filter channel. -/
theorem exec_osc_flts {i : Instr} {s t : State} (hu : i.unit = .osc) (h : exec i s = .next t) : t.flts = s.flts := by
  cases i <;> simp [Instr.unit] at hu
  · obtain ⟨_, rfl⟩ | rfl | ⟨_, _, _, _, _, _, rfl⟩ := execOscBuild_cases h <;> rfl
  · obtain ⟨_, rfl⟩ | ⟨_, rfl⟩ | ⟨_, rfl⟩ | ⟨_, _, _, rfl⟩ := execOscPlay_cases h <;> rfl
  · obtain ⟨_, rfl⟩ | ⟨_, rfl⟩ := execOscRead_cases h <;> rfl

/-! ### One step -/

/-- The state an event finds: itself taken off `pending`, nothing returned yet. -/
def State.begin (s : State) (rest : List BusEvent) : State := (s.setPending rest).setReadData none

theorem step_nil {s : State} (h : s.pending = []) : step s = .next s := by
  simp [step, h]

theorem step_cons {s : State} {e : BusEvent} {rest : List BusEvent} (h : s.pending = e :: rest) :
    step s = perform e (s.begin rest) := by
  simp [step, h, State.begin]

theorem windowOffset_add (p : Params) {off : Nat} (h : off < 64) : windowOffset p (p.base + off) = some off := by
  simp [windowOffset, h]

theorem windowOffset_eq_some {p : Params} {addr off : Nat} :
    windowOffset p addr = some off ↔ addr = p.base + off ∧ off < 64 := by
  unfold windowOffset
  split
  · simp; omega
  · simp; omega

/-- The write of a value to CMD runs it as a command. -/
theorem perform_writeCmd (v : BitVec 64) (s : State) :
    perform (.writeCmd s.params v) s = runCommand v s := by
  simp [perform, BusEvent.writeCmd, windowOffset, hostWrite, regAt]

/-- Everything a host access or the reset input can do. -/
inductive Effect (s : State) : BusEvent → State → Prop
  | reset : Effect s .reset s.afterReset
  | outsideRead {addr size : Nat} (h : windowOffset s.params addr = none) : Effect s (.read addr size) s
  | outsideWrite {addr size : Nat} {v : BitVec 64} (h : windowOffset s.params addr = none) : Effect s (.write addr size v) s
  | read {addr size off : Nat} {r : Reg} (h : windowOffset s.params addr = some off) (hr : regAt off size = some r) :
      Effect s (.read addr size) (s.setReadData (some (s.regValue r)))
  | badRead {addr size off : Nat} (h : windowOffset s.params addr = some off) (hr : regAt off size = none) :
      Effect s (.read addr size) ((s.busError off false).setReadData (some 0#64))
  | operand {addr size off : Nat} {v : BitVec 64} (h : windowOffset s.params addr = some off)
      (hr : regAt off size = some .operand) : Effect s (.write addr size v) (s.setOperand v)
  | command {addr size off : Nat} {v : BitVec 64} {i : Instr} {t : State} (h : windowOffset s.params addr = some off)
      (hr : regAt off size = some .cmd) (hd : decode s.params v = .ok i) (hx : exec i (s.setCmd v) = .next t) :
      Effect s (.write addr size v) t
  | badCommand {addr size off : Nat} {v : BitVec 64} {e : DecodeReject} (h : windowOffset s.params addr = some off)
      (hr : regAt off size = some .cmd) (hd : decode s.params v = .error e) :
      Effect s (.write addr size v) ((s.setCmd v).raiseError .illegal)
  | status {addr size off : Nat} {v : BitVec 64} (h : windowOffset s.params addr = some off)
      (hr : regAt off size = some .status) : Effect s (.write addr size v) (s.acknowledge v)
  | rate {addr size off : Nat} {v : BitVec 64} (h : windowOffset s.params addr = some off)
      (hr : regAt off size = some .sampleRate) (hv : v.extractLsb' 32 32 = 0#32 ∧ v.extractLsb' 0 32 ≠ 0#32) :
      Effect s (.write addr size v) (s.setRate (v.extractLsb' 0 32))
  | badRate {addr size off : Nat} {v : BitVec 64} (h : windowOffset s.params addr = some off)
      (hr : regAt off size = some .sampleRate) (hv : ¬(v.extractLsb' 32 32 = 0#32 ∧ v.extractLsb' 0 32 ≠ 0#32)) :
      Effect s (.write addr size v) (s.recordError .cfg 0x30#32 true true)
  | badWrite {addr size off : Nat} {v : BitVec 64} (h : windowOffset s.params addr = some off)
      (hr : regAt off size = none ∨ regAt off size = some .id ∨ regAt off size = some .result ∨
        regAt off size = some .errinfo) : Effect s (.write addr size v) (s.busError off true)

theorem perform_effect (e : BusEvent) (s : State) : ∃ t, perform e s = .next t ∧ Effect s e t := by
  cases e with
  | reset => exact ⟨_, rfl, .reset⟩
  | read addr size =>
    cases h : windowOffset s.params addr with
    | none => exact ⟨s, by simp [perform, h], .outsideRead h⟩
    | some off =>
      cases hr : regAt off size with
      | none => exact ⟨_, by simp only [perform, h, hostRead, hr], .badRead h hr⟩
      | some r => exact ⟨_, by simp only [perform, h, hostRead, hr], .read h hr⟩
  | write addr size v =>
    cases h : windowOffset s.params addr with
    | none => exact ⟨s, by simp [perform, h], .outsideWrite h⟩
    | some off =>
      have hp : perform (.write addr size v) s = hostWrite off size v s := by simp [perform, h]
      rw [hp]
      cases hr : regAt off size with
      | none => exact ⟨_, by simp only [hostWrite, hr], .badWrite h (.inl hr)⟩
      | some r =>
        cases r with
        | id => exact ⟨_, by simp only [hostWrite, hr], .badWrite h (.inr (.inl hr))⟩
        | result => exact ⟨_, by simp only [hostWrite, hr], .badWrite h (.inr (.inr (.inl hr)))⟩
        | errinfo => exact ⟨_, by simp only [hostWrite, hr], .badWrite h (.inr (.inr (.inr hr)))⟩
        | operand => exact ⟨_, by simp only [hostWrite, hr], .operand h hr⟩
        | status => exact ⟨_, by simp only [hostWrite, hr], .status h hr⟩
        | sampleRate =>
          by_cases hv : v.extractLsb' 32 32 = 0#32 ∧ v.extractLsb' 0 32 ≠ 0#32
          · exact ⟨_, by simp only [hostWrite, hr, writeSampleRate, if_pos hv], .rate h hr hv⟩
          · exact ⟨_, by simp only [hostWrite, hr, writeSampleRate, if_neg hv], .badRate h hr hv⟩
        | cmd =>
          cases hd : decode s.params v with
          | error e => exact ⟨_, by simp only [hostWrite, hr, runCommand, hd], .badCommand h hr hd⟩
          | ok i =>
            obtain ⟨t, ht⟩ := exec_next i (s.setCmd v)
            exact ⟨t, by simp only [hostWrite, hr, runCommand, hd, ht], .command h hr hd ht⟩

/-- Everything a step can do: wait, or perform the oldest event. -/
theorem step_effect {s t : State} (h : step s = .next t) :
    (s.pending = [] ∧ t = s) ∨ ∃ e rest, s.pending = e :: rest ∧ Effect (s.begin rest) e t := by
  cases hp : s.pending with
  | nil =>
    rw [step_nil hp] at h
    exact .inl ⟨rfl, next_inj h⟩
  | cons e rest =>
    rw [step_cons hp] at h
    obtain ⟨t', h1, h2⟩ := perform_effect e (s.begin rest)
    rw [h1] at h
    exact .inr ⟨e, rest, rfl, next_inj h ▸ h2⟩

end Sys2Proof.Machine
end

