-- ==== Sys2Proof/Laws/PerInstr.lean ====
section
/-! SUPPORT. One fact about every command as syntax: its CMD value matches its row of spec/opcode_table.json, as the row's `mask`
and `match` are written there. -/

namespace Sys2Proof.Laws.TableRow

open Sys2Proof

/-- The row's `mask`. -/
def mask : Instr → BitVec 64
  | .oscBuild .. => 0xFFFFFFFFFF00FCF8#64
  | .oscPlay _ => 0xFFFFFFFFFF00FFFF#64
  | .oscRead .. => 0xFFFFFFFFFF00FFF0#64
  | .fltSetQ _ => 0xFFFFFFFFFF00FFFF#64
  | .fltSetHpf _ => 0xFFFFFFFFFF00FFFF#64
  | .fltSetFc _ => 0xFFFFFFFFFF00FFFF#64
  | .fltReset _ => 0xFFFFFFFFFF00FFFF#64
  | .fltRun _ => 0xFFFFFFFFFF00FFFF#64
  | .fltRead .. => 0xFFFFFFFFFF00FFF0#64

/-- The row's `match`. -/
def pattern : Instr → BitVec 64
  | .oscBuild .. => 0x0000000001000000#64
  | .oscPlay _ => 0x0000000002000000#64
  | .oscRead .. => 0x0000000003000000#64
  | .fltSetQ _ => 0x0000000011000000#64
  | .fltSetHpf _ => 0x0000000012000000#64
  | .fltSetFc _ => 0x0000000013000000#64
  | .fltReset _ => 0x0000000014000000#64
  | .fltRun _ => 0x0000000015000000#64
  | .fltRead .. => 0x0000000016000000#64

/-- The command's CMD value is one of its own row's. -/
def Statement (i : Instr) : Prop :=
  cmdValue (encode i) &&& mask i = pattern i

/-- The mask asks for OP, for some ARG bits and for the high half, and leaves CH out. -/
theorem of_arg (i : Instr) (m : BitVec 16) (hm : mask i = 0xFFFFFFFFFF00#48 ++ m) (ha : i.arg &&& m = 0#16)
    (hp : pattern i = cmdValue (i.op ++ 0#8 ++ 0#16)) : Statement i := by
  unfold Statement encode
  rw [hm, hp]
  generalize i.op = op, i.ch = ch, i.arg = arg at *
  have hbit : ∀ j < 16, (arg.getLsbD j && m.getLsbD j) = false := fun j hj => by
    have := congrArg (fun x => x.getLsbD j) ha
    simpa only [BitVec.getLsbD_and, BitVec.getLsbD_zero] using this
  have lowMask : ∀ k < 8, (0xFFFFFFFFFF00#48).getLsbD k = false := by decide
  have highMask : ∀ k < 48, 8 ≤ k → (0xFFFFFFFFFF00#48).getLsbD k = true := by decide
  apply BitVec.eq_of_getLsbD_eq
  intro j hj
  simp only [cmdValue, BitVec.getLsbD_and, BitVec.getLsbD_append]
  rcases (by omega : j < 16 ∨ (16 ≤ j ∧ j < 24) ∨ (24 ≤ j ∧ j < 32) ∨ 32 ≤ j) with h | h | h | h
  · have := hbit j h
    simp only [h, show j < 32 by omega, if_true, this, BitVec.getLsbD_zero]
  · have := lowMask (j - 16) (by omega)
    simp [this, show ¬j < 16 by omega, show j - 16 < 8 by omega]
  · have := highMask (j - 16) (by omega) (by omega)
    simp [this, show ¬j < 16 by omega, show j < 32 by omega, show ¬j - 16 < 8 by omega]
  · simp [show ¬j < 32 by omega]

theorem oscBuild (ch : BitVec 8) (kind : BitVec 3) (interp defsize : Bool) :
    Statement (.oscBuild ch kind interp defsize) := by
  have h : ∀ (kind : BitVec 3) (interp defsize : Bool),
      (Instr.oscBuild 0#8 kind interp defsize).arg &&& 0xFCF8#16 = 0#16 := by decide
  exact of_arg _ 0xFCF8#16 rfl (h kind interp defsize) (by simp only [pattern, Instr.op]; decide)

theorem oscPlay (ch : BitVec 8) : Statement (.oscPlay ch) :=
  of_arg _ 0xFFFF#16 rfl (by simp only [Instr.arg]; decide) (by simp only [pattern, Instr.op]; decide)

theorem oscRead (ch : BitVec 8) (sel : OscSel) : Statement (.oscRead ch sel) := by
  cases sel <;> exact of_arg _ 0xFFF0#16 rfl (by simp only [Instr.arg, OscSel.field]; decide) (by simp only [pattern, Instr.op]; decide)

theorem fltSetQ (ch : BitVec 8) : Statement (.fltSetQ ch) :=
  of_arg _ 0xFFFF#16 rfl (by simp only [Instr.arg]; decide) (by simp only [pattern, Instr.op]; decide)

theorem fltSetHpf (ch : BitVec 8) : Statement (.fltSetHpf ch) :=
  of_arg _ 0xFFFF#16 rfl (by simp only [Instr.arg]; decide) (by simp only [pattern, Instr.op]; decide)

theorem fltSetFc (ch : BitVec 8) : Statement (.fltSetFc ch) :=
  of_arg _ 0xFFFF#16 rfl (by simp only [Instr.arg]; decide) (by simp only [pattern, Instr.op]; decide)

theorem fltReset (ch : BitVec 8) : Statement (.fltReset ch) :=
  of_arg _ 0xFFFF#16 rfl (by simp only [Instr.arg]; decide) (by simp only [pattern, Instr.op]; decide)

theorem fltRun (ch : BitVec 8) : Statement (.fltRun ch) :=
  of_arg _ 0xFFFF#16 rfl (by simp only [Instr.arg]; decide) (by simp only [pattern, Instr.op]; decide)

theorem fltRead (ch : BitVec 8) (sel : FltSel) : Statement (.fltRead ch sel) := by
  cases sel <;> exact of_arg _ 0xFFF0#16 rfl (by simp only [Instr.arg, FltSel.field]; decide) (by simp only [pattern, Instr.op]; decide)

end Sys2Proof.Laws.TableRow
end

