-- ==== Sys2Proof/Tests/Slice0.lean ====
section
/-! SUPPORT. Small tests. Expected values are the worked vectors of spec/95_test_vectors.md (named by their ids), the encodings of
spec/30_encoding.md, or the rules' own examples. Then one witness per statement that has hypotheses. -/

namespace Sys2Proof.Tests

/- One theorem at a time: run in parallel, the kernel evaluations below wait for each other, and each waiting thread reserves a stack of
its own. -/
set_option Elab.async false

open Sys2Proof Sys2Proof.Machine

/-! ### Helpers -/

/-- A binary64 from its bit pattern. -/
def f64 (v : BitVec 64) : Binary64 := .ofBits v

/-- The state after one step. -/
def stepped (s : State) : State :=
  match step s with
  | .next t => t
  | .fault _ => s
  | .refused _ => s

/-- The state after one access. -/
def accessed (s : State) (e : BusEvent) : State := stepped (s.setPending [e])

/-- The state after one write of a value to CMD. -/
def commanded (s : State) (v : BitVec 64) : State := accessed s (.writeCmd s.params v)

/-- The table of O-T2 (saw, 8 entries), written out. -/
def sawTable : Memory :=
  [(0, .finite false 0 0#23), (1, .finite false 125 0#23), (2, .finite false 126 0#23), (3, .finite false 126 0x400000#23),
    (4, .finite true 127 0#23), (5, .finite true 126 0x400000#23), (6, .finite true 126 0#23), (7, .finite true 125 0#23)]

/-- The channel "build saw 8/8" of spec/95_test_vectors.md leaves. -/
def sawChannel (interp : Bool) : OscChannel :=
  { built := true, kind := .saw, interp := interp, n := 8, coeff := .one, phase := .zero, table := sawTable }

/-- A block with that channel as oscillator channel 0, and an operand. -/
def sawBlock (interp : Bool) (operand : BitVec 64) : State :=
  ((State.reset.setRate 8#32).setOsc 0 (sawChannel interp)).setOperand operand

/-- One filter run with a prewarped coefficient given (F-K1 has it for the reset FC), since `tanF` has no value here. -/
def runWith (a : Binary64) (x : FltChannel) (input : Binary64) : RunOutcome :=
  x.settle (coeffsOf a x.bh) (x.y0 (coeffsOf a x.bh) input)

/-- `a` of F-K1. -/
def aK1 : Binary64 := f64 0x3FEA827999FCEF32#64

/-! ### Well-formedness: each check refuses an ill-formed term -/

theorem test_wellFormed_refuses_oscillator_channel_6 : ¬(Instr.oscPlay 6#8).wellFormed .default := by decide
theorem test_wellFormed_refuses_filter_channel_2 : ¬(Instr.fltRun 2#8).wellFormed .default := by decide
theorem test_wellFormed_accepts_the_last_channels :
    (Instr.oscBuild 5#8 7#3 true true).wellFormed .default ∧ (Instr.fltRead 1#8 .fc).wellFormed .default := by decide

/-! ### Decoding: one word per command, from R91, R93, R94 and the rules' own examples -/

theorem test_decode_oscBuild : decode .default 0x01050303#64 = .ok (.oscBuild 5#8 3#3 true true) := by decide
theorem test_decode_oscPlay : decode .default 0x02050000#64 = .ok (.oscPlay 5#8) := by decide
theorem test_decode_oscRead : decode .default 0x03000003#64 = .ok (.oscRead 0#8 .config) := by decide
theorem test_decode_fltSetQ : decode .default 0x11000000#64 = .ok (.fltSetQ 0#8) := by decide
theorem test_decode_fltSetHpf : decode .default 0x12010000#64 = .ok (.fltSetHpf 1#8) := by decide
theorem test_decode_fltSetFc : decode .default 0x13000000#64 = .ok (.fltSetFc 0#8) := by decide
theorem test_decode_fltReset : decode .default 0x14000000#64 = .ok (.fltReset 0#8) := by decide
theorem test_decode_fltRun : decode .default 0x15010000#64 = .ok (.fltRun 1#8) := by decide
theorem test_decode_fltRead : decode .default 0x16000009#64 = .ok (.fltRead 0#8 .fc) := by decide

theorem test_decode_names_each_rejection :
    decode .default 0x100000000#64 = .error .highWordSet ∧ decode .default 0x04000000#64 = .error .unassignedOp ∧
      decode .default 0x01000008#64 = .error .reservedArgBit ∧ decode .default 0x03000005#64 = .error .selOutOfRange ∧
      decode .default 0x1600000A#64 = .error .selOutOfRange ∧ decode .default 0x02060000#64 = .error .channelOutOfRange ∧
      decode .default 0x15020000#64 = .error .channelOutOfRange := by decide

theorem test_encode_words :
    encode (.oscBuild 0#8 1#3 true false) = 0x01000101#32 ∧ encode (.oscRead 0#8 .table) = 0x03000004#32 ∧
      encode (.fltRead 0#8 .fc) = 0x16000009#32 := by decide

theorem test_decodeTableWord : decodeTableWord 64 0x14010000 = some (.fltReset 1#8) := by decide

/-- The row word of OSC_PLAY runs as the first command after reset: UNBUILT, as O-P15 for channel 1. -/
theorem test_withFetchWord_runs_the_word :
    let t := stepped (State.reset.withFetchWord 64 0x02000000)
    t.status = 0x04#64 ∧ t.errinfo = 0x0000000302000000#64 ∧ t.cmd = 0x02000000#64 := by decide +kernel

/-! ### Constants -/

/-- R8: a decimal literal is the nearest binary64. -/
theorem test_literals_are_nearest :
    Binary64.round false (2 * unit64) 100 = .fcMin ∧ Binary64.round false (999 * unit64) 1000 = .fcMax := by decide +kernel

/-- R11: TWO_PI64 is 0x401921FB54442D18. -/
theorem test_twoPi : Binary64.twoPi.toBits = 0x401921FB54442D18#64 := by decide +kernel

theorem test_integer_literals :
    Binary64.ofInt 1 = .one ∧ Binary64.ofInt 2 = .two ∧ Binary64.ofInt 3 = .three ∧ Binary64.ofInt 4 = .four ∧
      Binary64.ofInt 17 = .seventeen ∧ Binary64.ofInt 20 = .twenty ∧ Binary64.one.div .two = .half ∧
      Binary64.one.div .four = .quarter := by decide +kernel

/-- R9, by hand: 1 + 2^-24 is a tie and goes down to the even 1, 1 + 3 * 2^-24 a tie and up to the even 1 + 2^-22; half a unit above the
greatest binary32 gives infinity, the datum below that the greatest. -/
theorem test_to32_ties_and_overflow :
    (f64 0x3FF0000010000000#64).to32.toBits = 0x3F800000#32 ∧ (f64 0x3FF0000030000000#64).to32.toBits = 0x3F800002#32 ∧
      (f64 0xC7EFFFFFF0000000#64).to32.toBits = 0xFF800000#32 ∧ (f64 0x47EFFFFFEFFFFFFF#64).to32.toBits = 0x7F7FFFFF#32 := by
  decide +kernel

/-- R8 and R144 (e): x +. (-x) is +0.0; R8: (-0) +. (-0) is -0, and a negative product past the range is minus infinity. -/
theorem test_signs_of_results :
    (Binary64.one.add Binary64.one.neg).toBits = 0#64 ∧ (Binary64.zero.neg.add Binary64.zero.neg).toBits = 0x8000000000000000#64 ∧
      (f64 0x7FEFFFFFFFFFFFFF#64).mul (f64 0xFFEFFFFFFFFFFFFF#64) = .infinite true := by decide +kernel

/-! ### Reset and register accesses -/

/-- R22: ID with the default parameters. -/
theorem test_id : (accessed .reset (.read 0x00 8)).readData = some 0x0001000000010507#64 := by decide +kernel

/-- R250, R251, E-R1: SAMPLE_RATE is 44100 after reset. -/
theorem test_reset_rate : (accessed .reset (.read 0x30 8)).readData = some 0xAC44#64 := by decide +kernel

theorem test_reset_memories_are_canonical : ∀ o ∈ State.reset.oscs, o.table.wf = true := by decide

/-- A sub-word read (R64): 0, and BUS recorded with the offset of its first byte, REGACC 1, WRITE 0. -/
theorem test_narrow_read :
    (accessed .reset (.read 0x1C 4)).readData = some 0#64 ∧ (accessed .reset (.read 0x1C 4)).status = 0x20#64 ∧
      (accessed .reset (.read 0x1C 4)).errinfo = 0x000001060000001C#64 := by decide +kernel

/-- A write to ID (R22, R64): BUS with WRITE 1. -/
theorem test_write_id :
    (accessed .reset (.write 0x00 8 5#64)).errinfo = 0x0000030600000000#64 ∧
      (accessed .reset (.write 0x00 8 5#64)).status = 0x20#64 := by decide +kernel

/-- A SAMPLE_RATE write of 0 (R28, R212): CFG with INFO 0x30. -/
theorem test_rate_zero :
    (accessed .reset (.write 0x30 8 0#64)).errinfo = 0x0000030200000030#64 ∧
      (accessed .reset (.write 0x30 8 0#64)).sampleRate = 44100#32 := by decide +kernel

/-- R26: writing 1 clears the bit; the second error of a kind does not disturb ERRINFO (R214). -/
theorem test_status_write_clears :
    (accessed { State.reset with status := 0x2A#64 } (.write 0x20 8 0xFFFFFFFFFFFFFFC8#64)).status = 0x22#64 := by decide +kernel
theorem test_second_error_keeps_errinfo :
    (commanded { State.reset with status := 0x20#64, errinfo := 0x000001060000001C#64 } 0x02010000#64).errinfo =
      0x000001060000001C#64 ∧
    (commanded { State.reset with status := 0x20#64, errinfo := 0x000001060000001C#64 } 0x02010000#64).status = 0x24#64 := by
  decide +kernel

/-- R98: an unassigned OP stores CMD, zeroes RESULT and raises ILLEGAL. -/
theorem test_unassigned_op :
    (commanded (State.reset.setResult 7#64) 0xFF000000#64).errinfo = 0x00000001FF000000#64 ∧
      (commanded (State.reset.setResult 7#64) 0xFF000000#64).cmd = 0xFF000000#64 ∧
      (commanded (State.reset.setResult 7#64) 0xFF000000#64).result = 0#64 := by decide +kernel

/-! ### Oscillator commands -/

/-- O-T2 to O-T4: the sawtooth, ramp and triangle tables of size 8. -/
theorem test_tables :
    ((List.range 8).map fun i => (tableEntry .saw i 8).toBits) =
      [0x00000000#32, 0x3E800000#32, 0x3F000000#32, 0x3F400000#32, 0xBF800000#32, 0xBF400000#32, 0xBF000000#32, 0xBE800000#32] ∧
    ((List.range 8).map fun i => (tableEntry .ramp i 8).toBits) =
      [0x80000000#32, 0xBE800000#32, 0xBF000000#32, 0xBF400000#32, 0x3F800000#32, 0x3F400000#32, 0x3F000000#32, 0x3E800000#32] ∧
    ((List.range 8).map fun i => (tableEntry .triangle i 8).toBits) =
      [0x00000000#32, 0x3F000000#32, 0x3F800000#32, 0x3F000000#32, 0x00000000#32, 0xBF000000#32, 0xBF800000#32, 0xBF000000#32] := by
  decide +kernel

/-- O-T5b: the square table of size 7. -/
theorem test_square_table :
    ((List.range 7).map fun i => (tableEntry .square i 7).toBits) =
      [0x3F800000#32, 0x3F800000#32, 0x3F800000#32, 0x3F800000#32, 0xBF800000#32, 0xBF800000#32, 0xBF800000#32] := by
  decide +kernel

/-- O-B1: "build saw 8/8 interp" leaves the channel written out above. -/
theorem test_build_O_B1 :
    (commanded ((State.reset.setRate 8#32).setOperand 8#64) 0x01000101#64).osc 0 = sawChannel true ∧
      (commanded ((State.reset.setRate 8#32).setOperand 8#64) 0x01000101#64).status = 0#64 := by decide +kernel

/-- O-B3, O-B5: sizeCoefficient at the reset rate. -/
theorem test_buildCoeff :
    (buildCoeff 65536 44100).toBits = 0x3FF7C6F8C751F177#64 ∧ (buildCoeff 1 44100).toBits = 0x3EF7C6F8C751F177#64 := by decide +kernel

/-- O-B6, O-B9: KIND 5, and the default size above MAX_N. -/
theorem test_build_O_B6_B9 :
    (commanded (State.reset.setOperand 8#64) 0x01000005#64).errinfo = 0x0000000201000005#64 ∧
      (commanded (State.reset.setRate 65537#32) 0x01000201#64).errinfo = 0x0000000201000201#64 := by decide +kernel

/-- O-P1, first play: phase 2.5, result 0.625. -/
theorem test_play_O_P1 :
    (commanded (sawBlock true 0x4004000000000000#64) 0x02000000#64).result = 0x3FE4000000000000#64 ∧
      ((commanded (sawBlock true 0x4004000000000000#64) 0x02000000#64).osc 0).phase.toBits = 0x4004000000000000#64 := by
  decide +kernel

/-- O-P8a and O-P12: the next sample at index 7 is entry 0; a phase of 17 wraps once and is out of range. -/
theorem test_play_O_P8a_P12 :
    (commanded (sawBlock true 0x401E000000000000#64) 0x02000000#64).result = 0xBFC0000000000000#64 ∧
      (commanded (sawBlock true 0x4031000000000000#64) 0x02000000#64).errinfo = 0x0000000402000000#64 := by decide +kernel

/-- O-R4, O-R7: the CONFIG word and entry 7. -/
theorem test_read_O_R4_R7 :
    (commanded (sawBlock true 7#64) 0x03000003#64).result = 0x0000000000010101#64 ∧
      (commanded (sawBlock true 7#64) 0x03000004#64).result = 0xBFD0000000000000#64 := by decide +kernel

/-- O-R2, O-R9: an unbuilt channel, and an index past the table. -/
theorem test_read_O_R2_R9 :
    (commanded .reset 0x03000000#64).errinfo = 0x0000000303000000#64 ∧
      (commanded (sawBlock false 8#64) 0x03000004#64).errinfo = 0x0000000403000004#64 := by decide +kernel

/-! ### Filter commands -/

/-- F-P1: q = 0.23 and q = 0.85. -/
theorem test_setQ_F_P1 :
    ((commanded (State.reset.setOperand 0x3FCD70A3D70A3D71#64) 0x11000000#64).flt 0).k.toBits = 0x4012666666666667#64 ∧
      ((commanded (State.reset.setOperand 0x3FCD70A3D70A3D71#64) 0x11000000#64).flt 0).amp.toBits = 0x400A666666666667#64 ∧
      ((commanded (State.reset.setOperand 0x3FEB333333333333#64) 0x11000000#64).flt 0).k.toBits = 0x4031000000000000#64 := by
  decide +kernel

/-- F-P3: h = 1.0, and the singular h = -2 /. PI64. -/
theorem test_setHpf_F_P3 :
    ((commanded (State.reset.setOperand 0x3FF0000000000000#64) 0x12000000#64).flt 0).ah.toBits = 0x3FCC6B828682AB41#64 ∧
      ((commanded (State.reset.setOperand 0x3FF0000000000000#64) 0x12000000#64).flt 0).bh.toBits = 0x3FD8E51F5E5F5530#64 ∧
      ((commanded (State.reset.setOperand 0xBFE45F306DC9C883#64) 0x12000000#64).flt 0).ah = .infinite true ∧
      ((commanded (State.reset.setOperand 0xBFE45F306DC9C883#64) 0x12000000#64).flt 0).bh = .infinite false := by decide +kernel

/-- F-P2: c = 0.6, c = NaN, c = +inf. -/
theorem test_setFc_F_P2 :
    ((commanded (State.reset.setOperand 0x3FE3333333333333#64) 0x13000000#64).flt 0).fc.toBits = 0x3FD70A3D70A3D70A#64 ∧
      ((commanded (State.reset.setOperand 0x7FF8000000000000#64) 0x13000000#64).flt 0).fc.toBits = 0x3F947AE147AE147B#64 ∧
      ((commanded (State.reset.setOperand 0x7FF0000000000000#64) 0x13000000#64).flt 0).fc.toBits = 0x3FEFF7CED916872B#64 := by
  decide +kernel

/-- A channel with state and a resonance. -/
def ringing (k : Binary64) : FltChannel := { FltChannel.reset with z := ⟨.one, .one, .one, .one, .one⟩, k := k }

/-- F-R1: K = 17.0 keeps Z, K just below clears it. -/
theorem test_reset_F_R1 :
    ((commanded (State.reset.setFlt 0 (ringing .seventeen)) 0x14000000#64).flt 0).z = ⟨.one, .one, .one, .one, .one⟩ ∧
      ((commanded (State.reset.setFlt 0 (ringing (f64 0x4030FFFFFFFFFFFF#64))) 0x14000000#64).flt 0).z = .zero := by decide +kernel

/-- F-K1: the coefficients at the reset FC. -/
theorem test_coefficients_F_K1 :
    let q := coeffsOf aK1 FltChannel.reset.bh
    q.ainv.toBits = 0x3FF3504F333F9DE6#64 ∧ q.a2.toBits = 0x3FE5F619980C4337#64 ∧ q.b.toBits = 0x4005413CCCFE7799#64 ∧
      q.b2.toBits = 0x401C3C4999049934#64 ∧ q.c.toBits = 0x3FA04F5791E69ADB#64 ∧ q.g0.toBits = 0x3F9EBA472F07EB20#64 ∧
      q.g.toBits = 0x3F9135E54B8303F4#64 := by decide +kernel

/-- F-X1 run 2: from the state run 1 leaves, input 0.0. -/
theorem test_run_F_X1_run_2 :
    let x : FltChannel :=
      { FltChannel.reset with
        z := ⟨f64 0x3FE9841B2DA6C730#64, f64 0x3FD1D529776898D3#64, f64 0x3FB8A2FF98FFF339#64, f64 0x3F9EBA472F07EB1F#64,
          f64 0x3F7E48A103B4952F#64⟩ }
    let r := runWith aK1 x .zero
    r.out.toBits = 0x3FAD936FB36CC18A#64 ∧ r.z.z0.toBits = 0x3FC74E678183762C#64 ∧ r.z.z1.toBits = 0x3FD515D31BD1FAB8#64 ∧
      r.z.z2.toBits = 0x3FC9D5D802937642#64 ∧ r.z.z3.toBits = 0x3FB5E4DDE7AAC6C1#64 ∧ r.z.z4.toBits = 0x3F9E0F029D974368#64 := by
  decide +kernel

/-- F-C1: clip at 1.0, 2^52 and 2^53, and at two neighbours where it falls. -/
theorem test_clip_F_C1 :
    (clip .one).toBits = 0x3FE0000000000000#64 ∧ (clip (f64 0x4330000000000000#64)).toBits = 0x3FEFFFFFFFFFFFFE#64 ∧
      clip (.ofInt (2 ^ 53)) = .one ∧
      (clip (f64 0x401DDF8A5E39C921#64)).toBits = 0x3FEC38A0B189F437#64 ∧
      (clip (f64 0x401DDF8A5E39C922#64)).toBits = 0x3FEC38A0B189F436#64 := by decide +kernel

/-- Log 15: at 2^53 + 2 the formula in the arithmetic of R8 gives 1 - 2^-52 (hand calculation: 1 + |v| is a tie and goes to the even
2^53 + 4, and (2^53 + 2) / (2^53 + 4) rounds to 1 - 2^-52). -/
theorem test_clip_between_2_53_and_2_54 : (clip (f64 0x4340000000000001#64)).toBits = 0x3FEFFFFFFFFFFFFE#64 := by decide +kernel

/-- FLT_READ from reset: FC is 0.25 (R180's example), and AH. -/
theorem test_fltRead :
    (commanded .reset 0x16000009#64).result = 0x3FD0000000000000#64 ∧
      (commanded .reset 0x16000007#64).result = 0xBFBEC550F5B2E782#64 := by decide +kernel

/-! ### Witnesses: a concrete state and operands that meet each statement's hypotheses -/

/-- Reset with one write to come. -/
def writing (off : Nat) (v : BitVec 64) : State := State.reset.setPending [.write off 8 v]

/-- Reset with one read to come. -/
def reading (off size : Nat) : State := State.reset.setPending [.read off size]

/-- The reset state meets the invariant. -/
theorem reset_inv : State.reset.Inv := by
  refine ⟨by decide, rfl, rfl, by decide, by decide, fun o ho => ?_, fun x hx => ?_⟩
  · obtain ⟨_, rfl⟩ := List.mem_replicate.mp ho
    exact ⟨fun _ => rfl, ⟨rfl, fun _ _ => rfl⟩, fun h => Bool.noConfusion (h : false = true)⟩
  · obtain ⟨_, rfl⟩ := List.mem_replicate.mp hx
    decide +kernel

/-- The block with the built channel meets it too. -/
theorem sawBlock_inv (interp : Bool) (operand : BitVec 64) : (sawBlock interp operand).Inv := by
  refine ⟨reset_inv.1, rfl, rfl, by show (8#32) ≠ 0#32; decide, reset_inv.2.2.2.2.1, ?_, reset_inv.2.2.2.2.2.2⟩
  apply List.forall_mem_set reset_inv.2.2.2.2.2.1
  refine ⟨fun h => Bool.noConfusion (h : true = false), ⟨rfl, fun i hi => ?_⟩, fun _ => ⟨by show 1 ≤ 8 ∧ 8 ≤ 65536; decide, ?_, ?_, rfl, rfl, ?_⟩⟩
  · have hi : 65536 ≤ i := hi
    simp only [sawChannel, sawTable, Memory.read]
    repeat rw [if_neg (by omega)]
  · show Binary64.zero.ge .zero = true; decide +kernel
  · show Binary64.zero.lt (.ofInt 8) = true; decide +kernel
  · show ∀ i < 8, (sawTable.read i).isSome = true; decide

theorem witness_RoundingIsNearestTiesToEven : ∃ p den : Nat, 1 ≤ p ∧ 0 < den := ⟨52, 3, by decide⟩

theorem witness_OperatorsRoundTheExactResult : mag64 1 0#52 ≠ 0 := by decide

theorem witness_SpecialOperandsOfTheOperators :
    (Binary64.nan true 0).isNaN = true ∧ mag64 0 0#52 = 0 ∧ mag64 0 1#52 ≠ 0 := by decide

theorem witness_BitPatternsAndDataCorrespond : (Binary64.nan true 4503599627370494).isNaN = true := rfl

theorem witness_IntegersConvertExactly : |(2 ^ 53 : Int)| ≤ 2 ^ 53 ∧ |(-2 ^ 53 : Int)| ≤ 2 ^ 53 := by decide

theorem witness_DecodeInvertsEncode :
    (Instr.oscRead 5#8 .table).wellFormed .default ∧ (Instr.fltReset 1#8).wellFormed .default := by decide

theorem witness_DecodeAcceptsOnlyEncodings : decode .default 0x010503FF#64 = .error .reservedArgBit ∧
    decode .default 0x01050307#64 = .ok (.oscBuild 5#8 7#3 true true) := by decide

theorem witness_StepRunsTheDecodedCommand :
    ∃ (s : State) (v : BitVec 64) (rest : List BusEvent) (i : Instr), s.pending = .write (s.params.base + 0x10) 8 v :: rest ∧ decode s.params v = .ok i :=
  ⟨writing 0x10 0x15000000#64, 0x15000000#64, [], .fltRun 0#8, rfl, by decide⟩

/-- E-D1 (v[63:32] not zero), E-D2 (OP 0x00), E-D5 (CH 6), and the last SEL that is out of range by one. -/
theorem witness_IllegalCommandValueRaisesIllegal :
    (writing 0x10 0x0000000100000000#64).pending =
        .write ((writing 0x10 0x0000000100000000#64).params.base + 0x10) 8 0x0000000100000000#64 :: [] ∧
      IllegalCommandValue .default 0x0000000100000000#64 ∧ IllegalCommandValue .default 0#64 ∧
      IllegalCommandValue .default 0x02060000#64 ∧ IllegalCommandValue .default 0x1600000A#64 ∧
      IllegalCommandValue .default 0x01000400#64 ∧ IllegalCommandValue .default 0x15020000#64 ∧
      ¬IllegalCommandValue .default 0x16010009#64 := by
  exact ⟨rfl, by decide, by decide, by decide, by decide, by decide, by decide, by decide⟩

theorem witness_RaisingAnErrorIsPrecise :
    (Cause.bus, 6) ∈ [(Cause.illegal, 1), (.cfg, 2), (.unbuilt, 3), (.range, 4), (.nonfinite, 5), (.bus, 6)] := by decide

theorem witness_EveryStepAnswersANextState : State.reset.pending = [] := rfl

theorem witness_LegalReadsReturnTheRegister :
    (reading 0x00 8).pending = .read ((reading 0x00 8).params.base + 0x00) 8 :: [] ∧
      (reading 0x30 8).pending = .read ((reading 0x30 8).params.base + 0x30) 8 :: [] := ⟨rfl, rfl⟩

theorem witness_IdReportsTheParameters : Params.default.legal ∧
    Params.legal { Params.default with numOsc := 256, numFlt := 256, maxN := 4294967295, base := 64 } := by decide

/-- The reserved offset, a wrong size at the last byte, and an unaligned offset. -/
theorem witness_IllegalReadsRecordABusError :
    (reading 0x38 8).pending = .read ((reading 0x38 8).params.base + 0x38) 8 :: [] ∧
      (reading 63 1).pending = .read ((reading 63 1).params.base + 63) 1 :: [] ∧
      (reading 1 8).pending = .read ((reading 1 8).params.base + 1) 8 :: [] ∧ 63 < 64 ∧ 1 % 8 ≠ 0 := by
  exact ⟨rfl, rfl, rfl, by decide, by decide⟩

/-- A write to ERRINFO, an unaligned one that ends past the window, and a narrow one. -/
theorem witness_IllegalWritesRecordABusError :
    (writing 0x28 1#64).pending = .write ((writing 0x28 1#64).params.base + 0x28) 8 1#64 :: [] ∧
      (writing 0x3F 1#64).pending = .write ((writing 0x3F 1#64).params.base + 0x3F) 8 1#64 :: [] ∧ 0x28 ∈ [0x00, 0x18, 0x28, 0x38] ∧
      (State.reset.setPending [.write 0x08 4 1#64]).pending = .write (State.reset.params.base + 0x08) 4 1#64 :: [] ∧ 4 ≠ 8 := by
  exact ⟨rfl, rfl, by decide, rfl, by decide⟩

theorem witness_OperandWriteStoresTheValue :
    (writing 0x08 1#64).pending = .write ((writing 0x08 1#64).params.base + 0x08) 8 1#64 :: [] := rfl

theorem witness_StatusWriteClearsTheBitsWrittenAsOne :
    (writing 0x20 1#64).pending = .write ((writing 0x20 1#64).params.base + 0x20) 8 1#64 :: [] := rfl

/-- Both clauses at their boundary: the least rate, the greatest, zero, and the first value with a high bit. -/
theorem witness_SampleRateWritesAreValidated :
    (writing 0x30 1#64).pending = .write ((writing 0x30 1#64).params.base + 0x30) 8 1#64 :: [] ∧
      ((1#64).extractLsb' 32 32 = 0#32 ∧ (1#64).extractLsb' 0 32 ≠ 0#32) ∧
      ((0xFFFFFFFF#64).extractLsb' 32 32 = 0#32 ∧ (0xFFFFFFFF#64).extractLsb' 0 32 ≠ 0#32) ∧
      ¬((0#64).extractLsb' 32 32 = 0#32 ∧ (0#64).extractLsb' 0 32 ≠ 0#32) ∧
      ¬((0x100000001#64).extractLsb' 32 32 = 0#32 ∧ (0x100000001#64).extractLsb' 0 32 ≠ 0#32) := by
  exact ⟨rfl, by decide, by decide, by decide, by decide⟩

/-- The first address past the window, and the last before a window at 64. -/
theorem witness_AccessesOutsideTheWindowChangeNothing :
    (reading 64 8).params.base + 64 ≤ 64 ∧ (reading 64 8).pending = .read 64 8 :: [] ∧
      63 < (State.resetWith { Params.default with base := 64 }).params.base := by
  exact ⟨by decide, rfl, by decide⟩

theorem witness_TheWindowIsLittleEndian : regAt 0x30 8 = some .sampleRate ∧ 7 < 8 := by decide

theorem witness_OnlyCommandsChangeResult :
    (writing 0x18 1#64).pending = .write 0x18 8 1#64 :: [] ∧ BusEvent.write 0x18 8 1#64 ≠ .reset ∧
      (∀ v, BusEvent.write 0x18 8 1#64 ≠ .write ((writing 0x18 1#64).params.base + 0x10) 8 v) ∧
      ∃ t, step (writing 0x18 1#64) = .next t := by
  refine ⟨rfl, by decide, fun v h => ?_, _, rfl⟩
  injection h with h
  exact absurd h (by decide)

theorem witness_CommandsIgnoreStatus : ∃ t, exec (.oscPlay 0#8) (sawBlock true 0#64) = .next t := exec_next _ _

theorem witness_ChannelsAreIndependent :
    (∃ t, exec (.oscPlay 0#8) (sawBlock true 0#64) = .next t) ∧ 1 ≠ (Instr.oscPlay 0#8).ch.toNat ∧
      (Instr.oscPlay 0#8).unit = .osc ∧ (Instr.fltRun 0#8).unit = .flt := ⟨exec_next _ _, by decide, rfl, rfl⟩

theorem witness_ResetRestoresEveryElement : ((sawBlock true 1#64).setPending [.reset]).pending = .reset :: [] := rfl

theorem witness_ResetMeetsTheInvariant : Params.default.legal := by decide

/-- A state with a built channel, about to play. -/
theorem witness_EveryStepKeepsTheInvariant :
    ((sawBlock true 1#64).setPending [.write 0x10 8 0x02000000#64]).Inv ∧
      ∃ t, step ((sawBlock true 1#64).setPending [.write 0x10 8 0x02000000#64]) = .next t :=
  ⟨sawBlock_inv true 1#64, (perform_effect _ _).imp fun _ h => (step_cons rfl).trans h.1⟩

theorem witness_BuiltChannelIsFixedUntilReset :
    (sawBlock true 1#64).oscs[0]? = some (sawChannel true) ∧ (sawChannel true).built = true ∧
      ((sawBlock true 1#64).setPending [.write 0x10 8 0x01000101#64]).pending.head? ≠ some .reset := by
  exact ⟨rfl, rfl, by decide⟩

/-- The last entry of the first half and the first of the second, for an odd size. -/
theorem witness_SquareEntries : 2 * 3 < 7 ∧ 7 ≤ 2 * 4 := by decide

theorem witness_SawtoothJumpsAtHalf : (1 ≤ 1 ∧ 2 * 1 ≤ 4294967295) ∧ 1 ≤ 2147483647 ∧ 2 * 2147483647 ≤ 4294967295 := by decide

theorem witness_FirstEntryOfEachTable : (1 ≤ 1 ∧ 1 ≤ 4294967295) ∧ 1 ≤ 4294967295 := by decide

/-- A size given by OPERAND at MAX_N, and one given by SAMPLE_RATE. -/
theorem witness_OscBuildBuildsTheChannel :
    ((State.reset.setOperand 65536#64).oscs[(5#8).toNat]? = some .reset ∧ (5#8).toNat < State.reset.params.numOsc ∧
      OscChannel.reset.built = false ∧ 65536 = (State.reset.setOperand 65536#64).operand.toNat ∧
      65536 ≤ State.reset.params.maxN) ∧ 1 ≤ State.reset.sampleRate.toNat ∧ State.reset.sampleRate.toNat ≤ State.reset.params.maxN := by
  exact ⟨⟨rfl, by decide, rfl, by decide, by decide⟩, by decide, by decide⟩

/-- A built channel; an unbuilt one with KIND 5, with size 0, with size MAX_N + 1. -/
theorem witness_OscBuildRefusesMisconfiguration :
    ((sawBlock true 8#64).oscs[(0#8).toNat]? = some (sawChannel true) ∧ (sawChannel true).built = true) ∧
      State.reset.oscs[(0#8).toNat]? = some .reset ∧ 4 < (5#3).toNat ∧ State.reset.operand.toNat = 0 ∧
      State.reset.params.maxN < (State.reset.setOperand 65537#64).operand.toNat := by
  exact ⟨⟨rfl, rfl⟩, rfl, by decide, by decide, by decide⟩

/-- O-P4's first play: phase 2.0, entry 2. -/
theorem witness_OscPlayTruncates :
    let o := sawChannel false
    let q := o.phase.add ((f64 0x4000000000000000#64).mul o.coeff)
    (sawBlock false 0x4000000000000000#64).oscs[(0#8).toNat]? = some o ∧ o.built = true ∧ o.interp = false ∧
      q.ge (.ofInt 8) = false ∧ q.ge .zero = true ∧ q.lt (.ofInt 8) = true ∧
      o.table.read q.floorInt.toNat = some (.finite false 126 0#23) := by decide +kernel

/-- O-P8a: phase 7.5, entries 7 and 0. -/
theorem witness_OscPlayInterpolates :
    let o := sawChannel true
    let q := o.phase.add ((f64 0x401E000000000000#64).mul o.coeff)
    (sawBlock true 0x401E000000000000#64).oscs[(0#8).toNat]? = some o ∧ o.built = true ∧ o.interp = true ∧
      q.ge (.ofInt 8) = false ∧ q.ge .zero = true ∧ q.lt (.ofInt 8) = true ∧ q.floorInt.toNat = 7 ∧
      o.table.read 7 = some (.finite true 125 0#23) ∧ o.table.read (if 7 + 1 = o.n then 0 else 7 + 1) = some (.finite false 0 0#23) := by
  decide +kernel

/-- The last phase below 8. -/
theorem witness_AcceptedPhaseIndexesTheTable :
    (f64 0x401FFFFFFFFFFFFF#64).ge .zero = true ∧ (f64 0x401FFFFFFFFFFFFF#64).lt (.ofInt 8) = true ∧
      (f64 0x8000000000000000#64).ge .zero = true := by decide +kernel

/-- O-P15 (unbuilt), O-P12 (17.0 wraps once to 9.0) and O-P11 (a negative phase). -/
theorem witness_OscPlayErrors :
    (State.reset.oscs[(1#8).toNat]? = some .reset ∧ OscChannel.reset.built = false) ∧
      (let o := sawChannel true
      let q := o.phase.add ((f64 0x4031000000000000#64).mul o.coeff)
      let n := o.phase.add ((f64 0xC000000000000000#64).mul o.coeff)
      q.ge (.ofInt o.n) = true ∧ (q.sub (.ofInt o.n)).lt (.ofInt o.n) = false ∧ n.ge (.ofInt o.n) = false ∧ n.ge .zero = false) := by
  decide +kernel

theorem witness_NonfiniteFrequencyRaisesRange :
    (sawBlock true 0x7FF0000000000000#64).oscs[(0#8).toNat]? = some (sawChannel true) ∧ (sawChannel true).built = true ∧
      (Binary64.ofBits (sawBlock true 0x7FF0000000000000#64).operand).isFinite = false ∧
      (Binary64.ofBits 0x7FF8000000000000#64).isFinite = false := by
  exact ⟨rfl, rfl, by decide, by decide⟩

theorem witness_PlayAtFrequencyZeroKeepsThePhase :
    (sawBlock true 0x8000000000000000#64).Inv ∧ (sawBlock true 0x8000000000000000#64).oscs[(0#8).toNat]? = some (sawChannel true) ∧
      (sawChannel true).built = true ∧ (sawBlock true 0x8000000000000000#64).operand = 0x8000000000000000#64 :=
  ⟨sawBlock_inv _ _, rfl, rfl, rfl⟩

theorem witness_OscReadReturnsTheElement :
    (sawBlock true 7#64).oscs[(0#8).toNat]? = some (sawChannel true) ∧ (sawBlock true 7#64).operand.toNat < (sawChannel true).n ∧
      (sawChannel true).table.read (sawBlock true 7#64).operand.toNat = some (.finite true 125 0#23) := by decide

theorem witness_OscReadErrors :
    (State.reset.oscs[(0#8).toNat]? = some .reset ∧ OscSel.phase ≠ .config) ∧
      (sawBlock true 8#64).oscs[(0#8).toNat]? = some (sawChannel true) ∧ (sawChannel true).n ≤ (sawBlock true 8#64).operand.toNat := by
  decide

theorem witness_FrameOfTheOscillatorCommands :
    (Instr.oscBuild 0#8 1#3 true false).unit = .osc ∧
      (∃ t, exec (.oscBuild 0#8 1#3 true false) (State.reset.setOperand 8#64) = .next t) ∧
      (State.reset.setOperand 8#64).oscs[(0#8).toNat]? = some .reset := ⟨rfl, exec_next _ _, rfl⟩

theorem witness_ClipIsOdd : (Binary64.infinite true).isFinite = false ∧ (Binary64.nan false 0).isFinite = false := by decide

/-- The greatest value below 2^53, and 2^54. -/
theorem witness_ClipIsBoundedAndSaturates :
    (mag64 1075 0xFFFFFFFFFFFFF#52 : Int) < 2 ^ 53 * unit64 ∧ 2 ^ 54 * (unit64 : Int) ≤ mag64 1077 0#52 := by decide +kernel

/-- Reset holds filter channels 0 and 1; squares in the range, above it and below it, and a NaN one. -/
theorem witness_FltSetFcClampsTheSquare :
    State.reset.flts[(1#8).toNat]? = some .reset ∧ (1#8).toNat < State.reset.params.numFlt ∧
      (let v := Binary64.half.mul .half
      v.ge (f64 0x3F947AE147AE147B#64) = true ∧ v.le (f64 0x3FEFF7CED916872B#64) = true) ∧
      ((Binary64.infinite true).mul (.infinite true)).gt (f64 0x3FEFF7CED916872B#64) = true ∧
      (Binary64.zero.mul .zero).lt (f64 0x3F947AE147AE147B#64) = true ∧
      ((Binary64.nan false 0).mul (.nan false 0)).isNaN = true := by
  exact ⟨rfl, by decide, by decide +kernel, by decide +kernel, by decide +kernel, rfl⟩

theorem witness_FltSetQSetsTheGains :
    State.reset.flts[(0#8).toNat]? = some .reset ∧ (0#8).toNat < State.reset.params.numFlt := by exact ⟨rfl, by decide⟩

theorem witness_FltSetHpfSetsTheHighpass :
    State.reset.flts[(1#8).toNat]? = some .reset ∧ (1#8).toNat < State.reset.params.numFlt := by exact ⟨rfl, by decide⟩

/-- K just below 17, K = 17, K a NaN. -/
theorem witness_FltResetClearsBelow17 :
    (State.reset.setFlt 0 (ringing .seventeen)).flts[(0#8).toNat]? = some (ringing .seventeen) ∧
      (ringing (f64 0x4030FFFFFFFFFFFF#64)).k.lt (.ofInt 17) = true ∧ (Binary64.ofInt 17).le (ringing .seventeen).k = true ∧
      (ringing (.nan false 0)).k.isNaN = true := by
  exact ⟨rfl, by decide +kernel, by decide +kernel, rfl⟩

theorem witness_FltRunComputesOneSample :
    (State.reset.setFlt 1 (ringing .one)).flts[(1#8).toNat]? = some (ringing .one) ∧
      (1#8).toNat < (State.reset.setFlt 1 (ringing .one)).params.numFlt := by exact ⟨rfl, by decide⟩

/-- F-N1 (an infinite input) and F-N3 (the singular highpass). -/
theorem witness_NonfiniteInputOrParameterTripsTheGuard :
    State.reset.flts[(0#8).toNat]? = some .reset ∧ (Binary64.ofBits 0x7FF0000000000000#64).isFinite = false ∧
      (ringing (.infinite true)).k.isFinite = false ∧ { FltChannel.reset with ah := .infinite true }.ah.isFinite = false ∧
      { FltChannel.reset with bh := .infinite false }.bh.isFinite = false := by
  exact ⟨rfl, by decide, rfl, rfl, rfl⟩

theorem witness_FltReadReturnsTheElement :
    State.reset.flts[(0#8).toNat]? = some .reset ∧ (0#8).toNat < State.reset.params.numFlt ∧
      (FltSel.fc, FltChannel.reset.fc) ∈ [(FltSel.bh, FltChannel.reset.bh), (.fc, FltChannel.reset.fc)] := by
  exact ⟨rfl, by decide, by simp⟩

theorem witness_FrameOfTheFilterCommands :
    (Instr.fltReset 0#8).unit = .flt ∧ (∃ t, exec (.fltReset 0#8) (State.reset.setFlt 0 (ringing .one)) = .next t) ∧
      (0#8).toNat < State.reset.params.numFlt ∧ Instr.fltReset 0#8 ≠ .fltRun 0#8 := ⟨rfl, exec_next _ _, by decide, by decide⟩

/-- A datum at the overflow point of binary32, the one below it, and a NaN. -/
theorem witness_NarrowingRoundsToNearestEven :
    overflow32 ≤ |signed true (mag64 1150 0xFFFFFF0000000#52)| ∧ |signed true (mag64 1150 0xFFFFFEFFFFFFF#52)| < overflow32 ∧
      (Binary64.nan true 0).isNaN = true := by decide +kernel

theorem witness_ComparisonsAreOrdered :
    Binary64.zero.isFinite = true ∧ (Binary64.nan false 0).isNaN = true ∧ Binary64.one.isNaN = false := by decide

end Sys2Proof.Tests
end

section
/-! PROOFS. What the one rounding function gives (spec/00_scope.md R8, R9). The facts turn on midpoints: the rounded code lies on
the right side of the midpoint with every other code, and on a midpoint only where it is even. Nearest, ties to even, the
overflow point and exactness all follow. -/

namespace Sys2Proof

/-! ### Midpoints -/

/-- The rounded magnitude is within half of one unit, `2^roundShift`, of the quotient, and exactly half away only where its code
is even. -/
theorem roundCode_within_half {p num den : Nat} (hp : 1 ≤ p) (hd : 0 < den) :
    2 * (den * codeValue p (roundCode p num den)) ≤ 2 * num + den * 2 ^ roundShift p num den ∧
      2 * num ≤ 2 * (den * codeValue p (roundCode p num den)) + den * 2 ^ roundShift p num den ∧
      (2 * (den * codeValue p (roundCode p num den)) = 2 * num + den * 2 ^ roundShift p num den ∨
        2 * num = 2 * (den * codeValue p (roundCode p num den)) + den * 2 ^ roundShift p num den →
          roundCode p num den % 2 = 0) := by
  obtain ⟨h1, h2, heven⟩ :=
    roundHalfEven_spec (num := num) (Nat.mul_pos hd (Nat.two_pow_pos (roundShift p num den)))
  have hvalue : den * codeValue p (roundCode p num den) =
      den * 2 ^ roundShift p num den * roundHalfEven num (den * 2 ^ roundShift p num den) := by
    rw [codeValue_roundCode hd]; ring
  have hparity : roundCode p num den % 2 = roundHalfEven num (den * 2 ^ roundShift p num den) % 2 := by
    obtain ⟨q, rfl⟩ : ∃ q, p = q + 1 := ⟨p - 1, by omega⟩
    rw [roundCode_eq, Nat.pow_succ, ← Nat.mul_assoc, Nat.mul_add_mod_self_right]
  rw [hvalue, hparity]
  exact ⟨h1, h2, heven⟩

/-- The code before the rounded one is a whole unit below it, or else the rounded one is the least of its exponent, which rounding
down alone reaches. -/
theorem codeValue_pred_roundCode {p num den : Nat} (hd : 0 < den) (hr : 0 < roundCode p num den) :
    den * codeValue p (roundCode p num den) ≤ num ∨
      codeValue p (roundCode p num den - 1) + 2 ^ roundShift p num den = codeValue p (roundCode p num den) := by
  obtain ⟨_, hlo⟩ := roundShift_spec (p := p) (num := num) hd
  obtain ⟨hm, hk⟩ := roundHalfEven_range (p := p) (num := num) hd
  rw [codeValue_roundCode hd, roundCode_eq] at *
  generalize roundHalfEven num (den * 2 ^ roundShift p num den) = m at *
  generalize roundShift p num den = k at *
  by_cases hleast : k ≠ 0 ∧ m = 2 ^ p
  · obtain ⟨hk0, rfl⟩ := hleast
    left
    calc den * (2 ^ p * 2 ^ k) = den * 2 ^ k * 2 ^ p := by ring
      _ ≤ num := hlo.resolve_left hk0
  · right
    have hm0 : 0 < m := by
      rcases hk with rfl | h
      · simpa using hr
      · exact lt_of_lt_of_le (Nat.two_pow_pos p) h
    rw [Nat.add_sub_assoc hm0, codeValue_scaled (by omega) (by omega), ← Nat.succ_mul, Nat.succ_eq_add_one,
      Nat.sub_add_cancel hm0]

/-- The code after the rounded one is a whole unit or more above it. -/
theorem codeValue_succ_roundCode {p num den : Nat} (hd : 0 < den) :
    codeValue p (roundCode p num den) + 2 ^ roundShift p num den ≤ codeValue p (roundCode p num den + 1) := by
  obtain ⟨hm, hk⟩ := roundHalfEven_range (p := p) (num := num) hd
  rw [codeValue_roundCode hd, roundCode_eq]
  generalize roundHalfEven num (den * 2 ^ roundShift p num den) = m at *
  generalize roundShift p num den = k at *
  have hpow : 2 ^ (p + 1) = 2 * 2 ^ p := by ring
  have hpos := Nat.two_pow_pos p
  rcases hm.lt_or_eq with hlt | rfl
  · rw [Nat.add_assoc, codeValue_scaled (by omega) (by omega), Nat.add_mul, Nat.one_mul]
  · rw [show k * 2 ^ p + 2 ^ (p + 1) + 1 = (k + 1) * 2 ^ p + (2 ^ p + 1) by rw [hpow]; ring,
      codeValue_scaled (by omega) (.inr (by omega)), hpow, Nat.pow_succ]
    nlinarith [Nat.two_pow_pos k]

/-- A smaller code than the rounded one: the quotient is not below their midpoint, and on it only where the rounded code is even. -/
theorem roundCode_midpoint_le {p num den c : Nat} (hp : 1 ≤ p) (hd : 0 < den) (hc : c < roundCode p num den) :
    den * codeValue p c + den * codeValue p (roundCode p num den) ≤ 2 * num ∧
      (den * codeValue p c + den * codeValue p (roundCode p num den) = 2 * num → roundCode p num den % 2 = 0) := by
  obtain ⟨hhalf, _, heven⟩ := roundCode_within_half (p := p) (num := num) hp hd
  rcases codeValue_pred_roundCode hd (Nat.zero_lt_of_lt hc) with hexact | hpred
  · have hlt := Nat.mul_lt_mul_of_pos_left (codeValue_strictMono p hc) hd
    exact ⟨by omega, fun h => by omega⟩
  · have hle := Nat.mul_le_mul_left den ((codeValue_strictMono p).monotone (Nat.le_sub_one_of_lt hc))
    have hunit := congrArg (den * ·) hpred
    simp only [Nat.mul_add] at hunit
    exact ⟨by omega, fun h => heven (.inl (by omega))⟩

/-- A larger code than the rounded one: the quotient is not above their midpoint, and on it only where the rounded code is even. -/
theorem le_roundCode_midpoint {p num den c : Nat} (hp : 1 ≤ p) (hd : 0 < den) (hc : roundCode p num den < c) :
    2 * num ≤ den * codeValue p (roundCode p num den) + den * codeValue p c ∧
      (2 * num = den * codeValue p (roundCode p num den) + den * codeValue p c → roundCode p num den % 2 = 0) := by
  obtain ⟨_, hhalf, heven⟩ := roundCode_within_half (p := p) (num := num) hp hd
  have hle : den * (codeValue p (roundCode p num den) + 2 ^ roundShift p num den) ≤ den * codeValue p c :=
    Nat.mul_le_mul_left den ((codeValue_succ_roundCode hd).trans ((codeValue_strictMono p).monotone hc))
  rw [Nat.mul_add] at hle
  exact ⟨by omega, fun h => heven (.inr (by omega))⟩

/-! ### Nearest, ties to even -/

/-- No code is nearer than the rounded one, and one equally near is the rounded one itself or leaves it even. -/
theorem roundCode_nearest {p num den : Nat} (hp : 1 ≤ p) (hd : 0 < den) (c : Nat) :
    |(num : Int) - den * codeValue p (roundCode p num den)| ≤ |(num : Int) - den * codeValue p c| ∧
      (|(num : Int) - den * codeValue p (roundCode p num den)| = |(num : Int) - den * codeValue p c| →
        c = roundCode p num den ∨ roundCode p num den % 2 = 0) := by
  have hmono {a b : Nat} (h : a < b) : (den : Int) * codeValue p a < den * codeValue p b := by
    exact_mod_cast Nat.mul_lt_mul_of_pos_left (codeValue_strictMono p h) hd
  rcases lt_trichotomy c (roundCode p num den) with hc | rfl | hc
  · obtain ⟨hle, heven⟩ := roundCode_midpoint_le hp hd hc
    have hlt := hmono hc
    zify at hle
    rw [abs_eq_max_neg, abs_eq_max_neg]
    exact ⟨by omega, fun h => .inr (heven (by zify; omega))⟩
  · exact ⟨le_rfl, fun _ => .inl rfl⟩
  · obtain ⟨hle, heven⟩ := le_roundCode_midpoint hp hd hc
    have hlt := hmono hc
    zify at hle
    rw [abs_eq_max_neg, abs_eq_max_neg]
    exact ⟨by omega, fun h => .inr (heven (by zify; omega))⟩

/-- The rounded code is past an odd one exactly from the midpoint with its successor on, for on the midpoint the odd code loses. -/
theorem roundCode_le_iff {p num den c : Nat} (hp : 1 ≤ p) (hd : 0 < den) (hodd : c % 2 = 1) :
    roundCode p num den ≤ c ↔ 2 * num < den * (codeValue p c + codeValue p (c + 1)) := by
  have hsucc := Nat.mul_lt_mul_of_pos_left (codeValue_strictMono p (Nat.lt_add_one c)) hd
  rw [Nat.mul_add]
  constructor
  · intro hle
    have hr := Nat.mul_le_mul_left den ((codeValue_strictMono p).monotone hle)
    obtain ⟨hmid, heven⟩ := le_roundCode_midpoint (num := num) hp hd (Nat.lt_add_one_of_le hle)
    rcases hle.lt_or_eq with hlt | rfl
    · have := Nat.mul_lt_mul_of_pos_left (codeValue_strictMono p hlt) hd
      omega
    · exact lt_of_le_of_ne hmid fun h => by have := heven h; omega
  · contrapose!
    intro hlt
    obtain ⟨hmid, _⟩ := roundCode_midpoint_le hp hd hlt
    have hr := Nat.mul_le_mul_left den ((codeValue_strictMono p).monotone (Nat.succ_le_of_lt hlt))
    exact le_trans (Nat.add_le_add_left hr _) hmid

/-- A magnitude that some code stands for is rounded to that code. -/
theorem roundCode_exact {p den : Nat} (hp : 1 ≤ p) (hd : 0 < den) (c : Nat) :
    roundCode p (den * codeValue p c) den = c := by
  obtain ⟨hnear, _⟩ := roundCode_nearest (num := den * codeValue p c) hp hd c
  rw [Nat.cast_mul, sub_self, abs_zero, abs_nonpos_iff, sub_eq_zero] at hnear
  have hvalue : den * codeValue p c = den * codeValue p (roundCode p (den * codeValue p c) den) := by
    exact_mod_cast hnear
  exact (codeValue_strictMono p).injective (Nat.eq_of_mul_eq_mul_left hd hvalue.symm)

/-- Every significand of at most `p + 1` bits, at every power of two, is the magnitude of some code. -/
theorem exists_codeValue_eq {p m : Nat} (hm : m ≤ 2 ^ (p + 1)) (k : Nat) : ∃ c, codeValue p c = m * 2 ^ k := by
  induction k generalizing m with
  | zero => exact ⟨0 * 2 ^ p + m, codeValue_scaled hm (.inl rfl)⟩
  | succ k ih =>
    rcases Nat.lt_or_ge m (2 ^ p) with hlt | hge
    · obtain ⟨c, hc⟩ := ih (m := 2 * m) (by rw [Nat.pow_succ]; omega)
      exact ⟨c, by rw [hc]; ring⟩
    · exact ⟨_, codeValue_scaled hm (.inr hge)⟩

/-! ### Signs -/

/-- Between numbers of one sign the distance is that of their magnitudes. -/
theorem abs_signed_sub_signed (s : Bool) (n d v : Nat) : |signed s n - d * signed s v| = |(n : Int) - d * v| := by
  cases s
  · rfl
  · rw [← abs_neg]
    congr 1
    simp only [signed, if_true]
    ring

/-- Between numbers of opposite signs the distance is the sum of their magnitudes. -/
theorem abs_signed_sub_signed_not (s : Bool) (n d v : Nat) : |signed s n - d * signed (!s) v| = n + d * v := by
  have hsum : (0 : Int) ≤ n + d * v := by positivity
  cases s
  · simp [signed, abs_of_nonneg hsum]
  · rw [← abs_neg]
    simp [signed, abs_of_nonneg hsum, add_comm]

/-- Under a sign the rounded code is still the nearest, ties to even, among data of either sign. -/
theorem signed_roundCode_nearest {p num den : Nat} (hp : 1 ≤ p) (hd : 0 < den) (s sx : Bool) (c : Nat) :
    |signed s num - den * signed s (codeValue p (roundCode p num den))| ≤ |signed s num - den * signed sx (codeValue p c)| ∧
      (|signed s num - den * signed s (codeValue p (roundCode p num den))| =
          |signed s num - den * signed sx (codeValue p c)| →
        signed sx (codeValue p c) = signed s (codeValue p (roundCode p num den)) ∨ roundCode p num den % 2 = 0) := by
  obtain ⟨hnear, htie⟩ := roundCode_nearest (num := num) hp hd c
  rw [abs_signed_sub_signed]
  rcases Bool.eq_or_eq_not sx s with rfl | rfl
  · rw [abs_signed_sub_signed]
    exact ⟨hnear, fun h => (htie h).imp_left fun hc => by rw [hc]⟩
  · rw [abs_signed_sub_signed_not]
    have hfar : |(num : Int) - den * codeValue p c| ≤ num + den * codeValue p c := by
      have hmag : (0 : Int) ≤ den * codeValue p c := by positivity
      rw [abs_le]
      omega
    refine ⟨hnear.trans hfar, fun h => ?_⟩
    rcases htie (le_antisymm hnear (h ▸ hfar)) with rfl | heven
    · have hzero : num = 0 ∨ den * codeValue p (roundCode p num den) = 0 := by
        rw [abs_eq_max_neg] at h
        zify
        omega
      rcases hzero with rfl | hzero
      · exact .inr (by simp)
      · rw [Nat.mul_eq_zero] at hzero
        exact .inl (by simp [hzero.resolve_left hd.ne'])
    · exact .inr heven

end Sys2Proof
end

section
/-! PROOFS. Numbers (spec/00_scope.md R8 to R10): rounding to binary64, exact results, the four operators, the conversions, the sign
bit and the comparisons. -/

namespace Sys2Proof

open Sys2Proof.Machine

/-! ### Rounding to binary64 -/

/-- Twice the overflow point of binary64 lies between the greatest finite code and its successor. -/
theorem two_mul_overflow64 :
    2 * overflow64 = codeValue 52 (2 ^ 52 * 2047 - 1) + codeValue 52 (2 ^ 52 * 2047 - 1 + 1) := by decide +kernel

/-- Rounding stays finite exactly below the overflow point. -/
theorem isFinite_round_iff {s : Bool} {num den : Nat} (hd : 0 < den) :
    (Binary64.round s num den).isFinite = true ↔ |signed s num| < den * overflow64 := by
  have hmid := roundCode_le_iff (p := 52) (num := num) (c := 2 ^ 52 * 2047 - 1) (by omega) hd (by norm_num)
  have habs : |signed s num| = num := by rw [Int.abs_eq_natAbs, natAbs_signed]
  have htwice : 2 * (den * overflow64) =
      den * (codeValue 52 (2 ^ 52 * 2047 - 1) + codeValue 52 (2 ^ 52 * 2047 - 1 + 1)) := by
    rw [← two_mul_overflow64]; ring
  zify at hmid
  rw [Binary64.round, Binary64.isFinite_ofCode, decide_eq_true_iff, habs]
  rw [← htwice] at hmid
  omega

/-- What a finite rounded datum holds: the sign and the rounded code. -/
theorem round_eq_finite {s sr : Bool} {num den : Nat} {er : Fin 2047} {fr : BitVec 52}
    (h : Binary64.round s num den = .finite sr er fr) :
    sr = s ∧ mag64 er fr = codeValue 52 (roundCode 52 num den) ∧ fr.toNat % 2 = roundCode 52 num den % 2 := by
  unfold Binary64.round at h
  rcases Nat.lt_or_ge (roundCode 52 num den / 2 ^ 52) 2047 with hlt | hge
  · rw [ofCode_of_lt hlt] at h
    cases h
    refine ⟨rfl, mag64_ofCode hlt, ?_⟩
    rw [BitVec.toNat_ofNat]
    omega
  · rw [ofCode_of_ge hge] at h
    cases h

/-- `Binary64.round` meets R8, whatever the sign, the numerator and the denominator. -/
theorem roundedTo_round (s : Bool) (num : Nat) {den : Nat} (hd : 0 < den) :
    RoundedTo s (signed s num) den (Binary64.round s num den) := by
  refine ⟨?_, Binary64.sign_round s num den, isFinite_round_iff hd, ?_⟩
  · unfold Binary64.round Binary64.ofCode
    split <;> rfl
  · intro sr er fr hr sx ex fx
    obtain ⟨rfl, hmag, hparity⟩ := round_eq_finite hr
    rw [hmag, hparity]
    exact signed_roundCode_nearest (by omega) hd sr sx _

/-! ### Exact results -/

/-- The two smallest values are powers of two; which ones, few facts need. -/
theorem unit64_eq_two_pow : ∃ k, unit64 = 2 ^ k := ⟨1074, by unfold unit64; rfl⟩

theorem unit32_eq_two_pow : ∃ k, unit32 = 2 ^ k := ⟨925, by unfold unit32; rfl⟩

/-- A magnitude that some code stands for, below that of infinity, is rounded to a datum with exactly that magnitude. -/
theorem round_of_codeValue_eq {c num : Nat} (hc : codeValue 52 c = num) (hlt : (num : Int) < infinity64) (s : Bool) :
    ∃ e f, Binary64.round s num 1 = .finite s e f ∧ mag64 e f = num := by
  have hcode : roundCode 52 num 1 = c := by
    have := roundCode_exact (p := 52) (den := 1) (by omega) (by omega) c
    rwa [Nat.one_mul, hc] at this
  have hinf : (codeValue 52 (2 ^ 52 * 2047) : Int) = infinity64 := by decide +kernel
  have hbound : c < 2 ^ 52 * 2047 := by
    rw [← (codeValue_strictMono 52).lt_iff_lt, hc]
    zify
    rwa [hinf]
  have hexp : c / 2 ^ 52 < 2047 := Nat.div_lt_of_lt_mul hbound
  exact ⟨_, _, by rw [Binary64.round, hcode, ofCode_of_lt hexp], by rw [mag64_ofCode hexp, hc]⟩

/-- The sign and the magnitude of an integer are the integer. -/
theorem signed_decide_neg_natAbs (n : Int) : signed (decide (n < 0)) n.natAbs = n := by
  rcases lt_or_ge n 0 with h | h
  · simp only [signed, h, decide_true, if_true]
    omega
  · simp only [signed, not_lt.mpr h, decide_false, Bool.false_eq_true, if_false]
    omega

theorem signed_mul (s : Bool) (m n : Nat) : signed s (m * n) = m * signed s n := by
  cases s <;> simp [signed]

theorem signed_mul_signed (s t : Bool) (m n : Nat) : signed s m * signed t n = signed (s != t) (m * n) := by
  cases s <;> cases t <;> simp [signed]

/-- An exact sum with the sign R8 gives it is the sum: the sign matters only where the sum is not zero. -/
theorem signed_sumSign (sa sb : Bool) (x : Int) : signed (sumSign sa sb x) x.natAbs = x := by
  unfold sumSign
  split
  · next h => simp [h]
  · exact signed_decide_neg_natAbs x

/-! ### The operators on finite data -/

namespace Binary64

variable (sa : Bool) (ea : Fin 2047) (fa : BitVec 52) (sb : Bool) (eb : Fin 2047) (fb : BitVec 52)

theorem add_finite :
    (finite sa ea fa).add (finite sb eb fb) =
      round (sumSign sa sb (signed sa (mag64 ea fa) + signed sb (mag64 eb fb)))
        (signed sa (mag64 ea fa) + signed sb (mag64 eb fb)).natAbs 1 := rfl

theorem sub_finite :
    (finite sa ea fa).sub (finite sb eb fb) =
      round (sumSign sa (!sb) (signed sa (mag64 ea fa) - signed sb (mag64 eb fb)))
        (signed sa (mag64 ea fa) - signed sb (mag64 eb fb)).natAbs 1 := by
  rw [sub_eq_add_neg, ← signed_neg]
  rfl

theorem mul_finite :
    (finite sa ea fa).mul (finite sb eb fb) = round (sa != sb) (mag64 ea fa * mag64 eb fb) unit64 := rfl

theorem div_finite (h : mag64 eb fb ≠ 0) :
    (finite sa ea fa).div (finite sb eb fb) = round (sa != sb) (unit64 * mag64 ea fa) (mag64 eb fb) := if_neg h

end Binary64

/-! ### binary32 -/

theorem Binary32.ofCode_fields (s : Bool) (e : Fin 255) (f : BitVec 23) :
    Binary32.ofCode s (2 ^ 23 * e.val + f.toNat) = .finite s e f := by
  have hf := f.isLt
  have he := e.isLt
  have hd : (2 ^ 23 * e.val + f.toNat) / 2 ^ 23 = e.val := by omega
  rw [Binary32.ofCode_of_lt (by omega)]
  congr 1
  · exact Fin.ext hd
  · apply BitVec.eq_of_toNat_eq
    rw [BitVec.toNat_ofNat]
    omega

theorem mag32_ofCode {c : Nat} (h : c / 2 ^ 23 < 255) :
    mag32 ⟨c / 2 ^ 23, h⟩ (BitVec.ofNat 23 c) = unit32 * codeValue 23 c := by
  simp only [mag32, BitVec.toNat_ofNat]
  rw [Nat.div_add_mod]

/-- Every finite binary32 magnitude is a finite binary64 magnitude: it has few enough bits, and is small enough. -/
theorem exists_codeValue_eq_mag32 (e : Fin 255) (f : BitVec 23) :
    (∃ c, codeValue 52 c = mag32 e f) ∧ (mag32 e f : Int) < infinity64 := by
  constructor
  · obtain ⟨k, m, -, hm, -, hvalue⟩ := code_scaled 23 (2 ^ 23 * e.val + f.toNat)
    obtain ⟨j, hj⟩ := unit32_eq_two_pow
    obtain ⟨c, hc⟩ := exists_codeValue_eq (p := 52) (m := m) (by omega) (j + k)
    exact ⟨c, by rw [hc, mag32, hvalue, hj, Nat.pow_add, Nat.mul_left_comm]⟩
  · have hcode : 2 ^ 23 * e.val + f.toNat ≤ 2 ^ 23 * 255 := by omega
    have hmag : mag32 e f ≤ unit32 * codeValue 23 (2 ^ 23 * 255) :=
      Nat.mul_le_mul_left _ ((codeValue_strictMono 23).monotone hcode)
    have hinf : ((unit32 * codeValue 23 (2 ^ 23 * 255) : Nat) : Int) < infinity64 := by decide +kernel
    omega

/-- Twice the overflow point of binary32 lies between the greatest finite code and its successor. -/
theorem two_mul_overflow32 :
    2 * overflow32 = unit32 * (codeValue 23 (2 ^ 23 * 255 - 1) + codeValue 23 (2 ^ 23 * 255 - 1 + 1)) := by decide +kernel

/-- Narrowing stays finite exactly below the overflow point. -/
theorem roundCode_lt_iff_overflow32 (m : Nat) : roundCode 23 m unit32 / 2 ^ 23 < 255 ↔ (m : Int) < overflow32 := by
  have hmid := roundCode_le_iff (p := 23) (num := m) (c := 2 ^ 23 * 255 - 1) (by omega) unit32_pos (by norm_num)
  zify at hmid
  rw [← two_mul_overflow32] at hmid
  omega

/-- `to32` of a finite datum meets R9. -/
theorem roundedTo32_to32 (s : Bool) (e : Fin 2047) (f : BitVec 52) :
    RoundedTo32 s (signed s (mag64 e f)) (Binary64.finite s e f).to32 := by
  have habs : |signed s (mag64 e f)| = mag64 e f := by rw [Int.abs_eq_natAbs, natAbs_signed]
  have hfinite := roundCode_lt_iff_overflow32 (mag64 e f)
  rw [← habs] at hfinite
  constructor
  · intro hover
    exact Binary32.ofCode_of_ge (not_lt.mp fun h => absurd (hfinite.mp h) (not_lt.mpr hover))
  · intro hlt
    have hcode := hfinite.mpr hlt
    refine ⟨_, _, Binary32.ofCode_of_lt hcode, fun sx ex fx => ?_⟩
    have hparity : (BitVec.ofNat 23 (roundCode 23 (mag64 e f) unit32)).toNat % 2 =
        roundCode 23 (mag64 e f) unit32 % 2 := by
      rw [BitVec.toNat_ofNat]
      omega
    rw [mag32_ofCode, hparity, mag32, signed_mul, signed_mul, mul_right_inj' (by exact_mod_cast unit32_pos.ne')]
    exact signed_roundCode_nearest (by omega) unit32_pos s sx _

/-! ### Exact conversions -/

/-- A finite binary32 widens to a finite binary64 with its sign and magnitude. -/
theorem from32_finite (s : Bool) (e : Fin 255) (f : BitVec 23) :
    ∃ e' f', (Binary32.finite s e f).from32 = .finite s e' f' ∧ mag64 e' f' = mag32 e f := by
  obtain ⟨⟨c, hc⟩, hlt⟩ := exists_codeValue_eq_mag32 e f
  exact round_of_codeValue_eq hc hlt s

/-- A finite binary64 with the magnitude of a binary32 narrows to that binary32. -/
theorem to32_of_mag64_eq_mag32 {s : Bool} {e : Fin 2047} {f : BitVec 52} {e' : Fin 255} {f' : BitVec 23}
    (h : mag64 e f = mag32 e' f') : (Binary64.finite s e f).to32 = .finite s e' f' := by
  have hcode : roundCode 23 (mag64 e f) unit32 = 2 ^ 23 * e'.val + f'.toNat := by
    rw [h, mag32, roundCode_exact (by omega) unit32_pos]
  rw [← Binary32.ofCode_fields, ← hcode]
  rfl

/-- `f64(n)` of an integer of at most 53 bits: a significand at the exponent of 1.0. -/
theorem ofInt_exact {n : Int} (hn : |n| ≤ 2 ^ 53) :
    ∃ e f, Binary64.ofInt n = .finite (decide (n < 0)) e f ∧ mag64 e f = unit64 * n.natAbs := by
  have hn : n.natAbs ≤ 2 ^ 53 := by
    rw [Int.abs_eq_natAbs] at hn
    exact_mod_cast hn
  obtain ⟨k, hk⟩ := unit64_eq_two_pow
  obtain ⟨c, hc⟩ := exists_codeValue_eq (p := 52) hn k
  have hcode : codeValue 52 c = unit64 * n.natAbs := by rw [hc, hk, Nat.mul_comm]
  have hinf : ((unit64 * 2 ^ 53 : Nat) : Int) < infinity64 := by decide +kernel
  have hlt : ((unit64 * n.natAbs : Nat) : Int) < infinity64 :=
    lt_of_le_of_lt (by exact_mod_cast Nat.mul_le_mul_left unit64 hn) hinf
  exact round_of_codeValue_eq hcode hlt _

/-! ### NaN operands -/

namespace Binary64

@[simp] theorem isNaN_neg (x : Binary64) : x.neg.isNaN = x.isNaN := by cases x <;> rfl

/-- A NaN, as its fields. -/
theorem isNaN_iff {x : Binary64} : x.isNaN = true ↔ ∃ s q, x = .nan s q := by
  cases x <;> simp [isNaN]

/-- An operation that answers `bad` on a NaN of either side, told by `isNaN`. -/
theorem eq_bad_of_isNaN {op : Binary64 → Binary64 → Binary64} {bad a b : Binary64} (hl : ∀ s q b, op (nan s q) b = bad)
    (hr : ∀ a s q, op a (nan s q) = bad) (h : a.isNaN = true ∨ b.isNaN = true) : op a b = bad := by
  rcases h with h | h
  · obtain ⟨s, q, rfl⟩ := isNaN_iff.mp h
    exact hl s q b
  · obtain ⟨s, q, rfl⟩ := isNaN_iff.mp h
    exact hr a s q

variable {bad a b : Binary64}

theorem addOr_of_isNaN (h : a.isNaN = true ∨ b.isNaN = true) : addOr bad a b = bad :=
  eq_bad_of_isNaN (fun _ _ _ => rfl) (fun a _ _ => by cases a <;> rfl) h

theorem mulOr_of_isNaN (h : a.isNaN = true ∨ b.isNaN = true) : mulOr bad a b = bad :=
  eq_bad_of_isNaN (fun _ _ _ => rfl) (fun a _ _ => by cases a <;> rfl) h

theorem divOr_of_isNaN (h : a.isNaN = true ∨ b.isNaN = true) : divOr bad a b = bad :=
  eq_bad_of_isNaN (fun _ _ _ => rfl) (fun a _ _ => by cases a <;> rfl) h

end Binary64

/-! ### Sign bits -/

/-- Masking the top bit away clears it, whatever the two fields below it are. -/
theorem clear_top_bit {m n : Nat} (s : Bool) (e : BitVec m) (f : BitVec n) :
    (BitVec.ofBool s ++ e ++ f) &&& (0#1 ++ BitVec.allOnes m ++ BitVec.allOnes n) = BitVec.ofBool false ++ e ++ f := by
  simp [BitVec.and_append]

/-- Flipping the top bit changes no other. -/
theorem flip_top_bit {m n : Nat} (s : Bool) (e : BitVec m) (f : BitVec n) :
    (BitVec.ofBool s ++ e ++ f) ^^^ (1#1 ++ 0#m ++ 0#n) = BitVec.ofBool (!s) ++ e ++ f := by
  cases s <;> simp [BitVec.xor_append]

/-! ### Comparisons -/

/-- Every finite datum lies between the infinities. -/
theorem signed_mag64_between (s : Bool) (e : Fin 2047) (f : BitVec 52) :
    -infinity64 < signed s (mag64 e f) ∧ signed s (mag64 e f) < infinity64 := by
  have := mag64_lt e f
  cases s <;> simp only [signed, Bool.false_eq_true, if_true, if_false] <;> omega

theorem infinity64_pos : 0 < infinity64 := by decide +kernel

namespace Binary64

theorem place_infinite (s : Bool) : (infinite s).place = some (if s then -infinity64 else infinity64) := rfl

theorem place_of_isNaN {a : Binary64} (h : a.isNaN = true) : a.place = none := by
  obtain ⟨s, q, rfl⟩ := isNaN_iff.mp h
  rfl

/-- Data that have places are compared by them. -/
theorem compare_of_place {a b : Binary64} {x y : Int} (ha : a.place = some x) (hb : b.place = some y) :
    a.lt b = decide (x < y) ∧ a.le b = decide (x ≤ y) ∧ a.eq b = decide (x = y) := by
  simp [lt, le, eq, ha, hb]

/-- A comparison with a datum that has no place is false. -/
theorem compare_of_place_none {a b : Binary64} (h : a.place = none ∨ b.place = none) :
    a.lt b = false ∧ a.le b = false ∧ a.eq b = false := by
  rcases h with h | h
  · simp [lt, le, eq, h]
  · cases ha : a.place <;> simp [lt, le, eq, ha, h]

end Binary64

end Sys2Proof
end

section
/-! PROOFS. Channels share no state (spec/00_scope.md R2, spec/30_encoding.md R92). A change of the state that a command neither reads
nor undoes, such as a write of another channel, may be made before the command or after it. -/

namespace Sys2Proof.Machine

open Sys2Proof

/-! ### Changes that a channel's commands do not see -/

/-- A change of the state that keeps what every command reads of the registers, and that a write of RESULT, STATUS or ERRINFO may
pass by. -/
structure KeepsRegisters (g : State → State) : Prop where
  params : ∀ s, (g s).params = s.params
  operand : ∀ s, (g s).operand = s.operand
  cmd : ∀ s, (g s).cmd = s.cmd
  status : ∀ s, (g s).status = s.status
  errinfo : ∀ s, (g s).errinfo = s.errinfo
  sampleRate : ∀ s, (g s).sampleRate = s.sampleRate
  setResult : ∀ s v, (g s).setResult v = g (s.setResult v)
  setStatus : ∀ s v, (g s).setStatus v = g (s.setStatus v)
  setErrinfo : ∀ s v, (g s).setErrinfo v = g (s.setErrinfo v)

/-- Such a change that also keeps oscillator channel `d`, and that a write of the channel may pass by. -/
structure UnseenByOsc (d : Nat) (g : State → State) : Prop extends KeepsRegisters g where
  osc : ∀ s, (g s).osc d = s.osc d
  setOsc : ∀ s o, (g s).setOsc d o = g (s.setOsc d o)

/-- The same for filter channel `d`. -/
structure UnseenByFlt (d : Nat) (g : State → State) : Prop extends KeepsRegisters g where
  flt : ∀ s, (g s).flt d = s.flt d
  setFlt : ∀ s x, (g s).setFlt d x = g (s.setFlt d x)

theorem keepsRegisters_setOsc (c : Nat) (o : OscChannel) : KeepsRegisters (·.setOsc c o) where
  params _ := rfl
  operand _ := rfl
  cmd _ := rfl
  status _ := rfl
  errinfo _ := rfl
  sampleRate _ := rfl
  setResult _ _ := rfl
  setStatus _ _ := rfl
  setErrinfo _ _ := rfl

theorem keepsRegisters_setFlt (c : Nat) (x : FltChannel) : KeepsRegisters (·.setFlt c x) where
  params _ := rfl
  operand _ := rfl
  cmd _ := rfl
  status _ := rfl
  errinfo _ := rfl
  sampleRate _ := rfl
  setResult _ _ := rfl
  setStatus _ _ := rfl
  setErrinfo _ _ := rfl

/-- An oscillator channel does not see a write of another one. -/
theorem unseenByOsc_setOsc {c d : Nat} (h : c ≠ d) (o : OscChannel) : UnseenByOsc d (·.setOsc c o) where
  toKeepsRegisters := keepsRegisters_setOsc c o
  osc s := by simp [State.osc, List.getElem?_set_ne h]
  setOsc s o' := by simp [State.setOsc, List.set_comm _ _ h]

theorem unseenByFlt_setFlt {c d : Nat} (h : c ≠ d) (x : FltChannel) : UnseenByFlt d (·.setFlt c x) where
  toKeepsRegisters := keepsRegisters_setFlt c x
  flt s := by simp [State.flt, List.getElem?_set_ne h]
  setFlt s x' := by simp [State.setFlt, List.set_comm _ _ h]

/-- A channel of one kind does not see a write of a channel of the other. -/
theorem unseenByFlt_setOsc (c d : Nat) (o : OscChannel) : UnseenByFlt d (·.setOsc c o) where
  toKeepsRegisters := keepsRegisters_setOsc c o
  flt _ := rfl
  setFlt _ _ := rfl

theorem unseenByOsc_setFlt (c d : Nat) (x : FltChannel) : UnseenByOsc d (·.setFlt c x) where
  toKeepsRegisters := keepsRegisters_setFlt c x
  osc _ := rfl
  setOsc _ _ := rfl

/-! ### The shared operations -/

namespace KeepsRegisters

variable {g : State → State} (hg : KeepsRegisters g) (s : State)
include hg

theorem operandF64 : (g s).operandF64 = s.operandF64 := congrArg Binary64.ofBits (hg.operand s)

theorem operandNat : (g s).operandNat = s.operandNat := congrArg BitVec.toNat (hg.operand s)

theorem rate : (g s).rate = s.rate := congrArg BitVec.toNat (hg.sampleRate s)

theorem buildSize (defsize : Bool) : (g s).buildSize defsize = s.buildSize defsize := by
  simp only [State.buildSize, hg.rate, hg.operandNat]

theorem recordCommandError (c : Cause) : (g s).recordCommandError c = g (s.recordCommandError c) := by
  simp only [State.recordCommandError, State.recordError, State.commandWord, hg.cmd, hg.status, hg.errinfo, hg.setStatus,
    hg.setErrinfo]

theorem raiseError (c : Cause) : (g s).raiseError c = g (s.raiseError c) := by
  simp only [State.raiseError, hg.recordCommandError, hg.setResult]

end KeepsRegisters

/-- A command on an oscillator channel passes by a change that the channel does not see, if what it does there passes by it. -/
theorem UnseenByOsc.onOsc {g : State → State} {ch : BitVec 8} (hg : UnseenByOsc ch.toNat g) (s : State)
    {act : State → Nat → OscChannel → State} (hact : ∀ o, act (g s) ch.toNat o = g (act s ch.toNat o)) :
    (g s).onOsc ch act = g (s.onOsc ch act) := by
  simp only [State.onOsc, hg.params, hg.osc, hg.raiseError, hact, apply_ite g]

theorem UnseenByFlt.onFlt {g : State → State} {ch : BitVec 8} (hg : UnseenByFlt ch.toNat g) (s : State)
    {act : State → Nat → FltChannel → State} (hact : ∀ x, act (g s) ch.toNat x = g (act s ch.toNat x)) :
    (g s).onFlt ch act = g (s.onFlt ch act) := by
  simp only [State.onFlt, hg.params, hg.flt, hg.raiseError, hact, apply_ite g]

theorem UnseenByOsc.playSample {g : State → State} {d : Nat} (hg : UnseenByOsc d g) (s : State) (o : OscChannel) (p : Binary64) :
    playSample (g s) d o p = playSample s d o p := by
  simp only [Machine.playSample, interpolate, State.tableRead, hg.osc]

/-! ### The commands -/

/-- An oscillator command may be run before or after a change that its channel does not see. -/
theorem UnseenByOsc.exec {g : State → State} {i : Instr} (hi : i.unit = .osc) (hg : UnseenByOsc i.ch.toNat g) {s t : State}
    (h : exec i s = .next t) : exec i (g s) = .next (g t) := by
  cases i with
  | oscBuild ch kind interp defsize =>
    obtain rfl := next_inj h
    refine congrArg Host.Outcome.next (hg.onOsc s fun o => ?_)
    simp only [hg.buildSize, hg.rate, hg.params, hg.raiseError, hg.setOsc, State.finish, hg.setResult]
    split
    · rfl
    · split
      · rfl
      · exact (apply_ite g _ _ _).symm
  | oscPlay ch =>
    obtain rfl := next_inj h
    refine congrArg Host.Outcome.next (hg.onOsc s fun o => ?_)
    simp only [hg.operandF64, hg.playSample, hg.raiseError, hg.setOsc, State.finishF64, hg.setResult, apply_ite g]
  | oscRead ch sel =>
    obtain rfl := next_inj h
    refine congrArg Host.Outcome.next (hg.onOsc s fun o => ?_)
    cases sel <;>
      simp only [hg.operandNat, State.tableRead, hg.osc, hg.raiseError, State.finishF64, State.finishNat, hg.setResult,
        apply_ite g]
  | _ => cases hi

/-- A filter command likewise. -/
theorem UnseenByFlt.exec {g : State → State} {i : Instr} (hi : i.unit = .flt) (hg : UnseenByFlt i.ch.toNat g) {s t : State}
    (h : exec i s = .next t) : exec i (g s) = .next (g t) := by
  cases i with
  | fltSetQ ch =>
    obtain rfl := next_inj h
    refine congrArg Host.Outcome.next (hg.onFlt s fun x => ?_)
    simp only [hg.operandF64, hg.setFlt, State.finish, hg.setResult]
  | fltSetHpf ch =>
    obtain rfl := next_inj h
    refine congrArg Host.Outcome.next (hg.onFlt s fun x => ?_)
    simp only [hg.operandF64, hg.setFlt, State.finish, hg.setResult]
  | fltSetFc ch =>
    obtain rfl := next_inj h
    refine congrArg Host.Outcome.next (hg.onFlt s fun x => ?_)
    simp only [hg.operandF64, hg.setFlt, State.finish, hg.setResult]
  | fltReset ch =>
    obtain rfl := next_inj h
    refine congrArg Host.Outcome.next (hg.onFlt s fun x => ?_)
    simp only [hg.setFlt, State.finish, hg.setResult, apply_ite g]
  | fltRun ch =>
    obtain rfl := next_inj h
    refine congrArg Host.Outcome.next (hg.onFlt s fun x => ?_)
    simp only [hg.operandF64, hg.setFlt, State.finishF64, hg.recordCommandError, hg.setResult, apply_ite g]
  | fltRead ch sel =>
    obtain rfl := next_inj h
    refine congrArg Host.Outcome.next (hg.onFlt s fun x => ?_)
    simp only [State.finishF64, hg.setResult]
  | _ => cases hi

/-! ### Other channels stay -/

/-- An oscillator command leaves every other oscillator channel as it was. -/
theorem exec_osc_other {i : Instr} (hi : i.unit = .osc) {s t : State} (h : exec i s = .next t) {c : Nat} (hc : c ≠ i.ch.toNat) :
    t.oscs[c]? = s.oscs[c]? := by
  cases i with
  | oscBuild ch kind interp defsize =>
    obtain ⟨_, rfl⟩ | rfl | ⟨_, _, _, _, _, _, rfl⟩ := execOscBuild_cases h
    · rfl
    · rfl
    · exact List.getElem?_set_ne hc.symm
  | oscPlay ch =>
    obtain ⟨_, rfl⟩ | ⟨_, rfl⟩ | ⟨_, rfl⟩ | ⟨_, _, _, rfl⟩ := execOscPlay_cases h
    · rfl
    · rfl
    · rfl
    · exact List.getElem?_set_ne hc.symm
  | oscRead ch sel => obtain ⟨_, rfl⟩ | ⟨_, rfl⟩ := execOscRead_cases h <;> rfl
  | _ => cases hi

/-- A filter command leaves every other filter channel as it was. -/
theorem exec_flt_other {i : Instr} (hi : i.unit = .flt) {s t : State} (h : exec i s = .next t) {c : Nat} (hc : c ≠ i.ch.toNat) :
    t.flts[c]? = s.flts[c]? := by
  cases i with
  | fltSetQ ch =>
    obtain ⟨_, rfl⟩ | ⟨_, _, _, rfl⟩ := execFltSetQ_cases h
    · rfl
    · exact List.getElem?_set_ne hc.symm
  | fltSetHpf ch =>
    obtain ⟨_, rfl⟩ | ⟨_, _, _, rfl⟩ := execFltSetHpf_cases h
    · rfl
    · exact List.getElem?_set_ne hc.symm
  | fltSetFc ch =>
    obtain ⟨_, rfl⟩ | ⟨_, rfl⟩ := execFltSetFc_cases h
    · rfl
    · exact List.getElem?_set_ne hc.symm
  | fltReset ch =>
    obtain ⟨_, rfl⟩ | rfl | ⟨_, rfl⟩ := execFltReset_cases h
    · rfl
    · rfl
    · exact List.getElem?_set_ne hc.symm
  | fltRun ch =>
    obtain ⟨_, rfl⟩ | ⟨_, _, rfl⟩ | ⟨_, _, rfl⟩ := execFltRun_cases h
    · rfl
    · exact List.getElem?_set_ne hc.symm
    · exact List.getElem?_set_ne hc.symm
  | fltRead ch sel => obtain ⟨_, rfl⟩ | ⟨_, rfl⟩ := execFltRead_cases h <;> rfl
  | _ => cases hi

end Sys2Proof.Machine
end

section
/-! PROOFS. The statements of spec/00_scope.md, settled from the facts above. -/

namespace Sys2Proof.Proofs

open Sys2Proof Sys2Proof.Machine

/-- Settles O1, from the midpoints on either side of the rounded code. -/
theorem roundingIsNearestTiesToEven : Obligations.RoundingIsNearestTiesToEven := by
  intro p num den c hp hd
  exact roundCode_nearest hp hd c

/-- Settles O2: each operator rounds its exact result, written as a sign and a magnitude. -/
theorem operatorsRoundTheExactResult : Obligations.OperatorsRoundTheExactResult := by
  intro sa ea fa sb eb fb a b
  have hsum : ∀ (tb : Bool) (x : Int), RoundedTo (sumSign sa tb x) x 1 (.round (sumSign sa tb x) x.natAbs 1) := fun tb x => by
    simpa only [signed_sumSign] using roundedTo_round (sumSign sa tb x) x.natAbs Nat.one_pos
  refine ⟨?_, ?_, ?_, fun hb => ?_⟩
  · rw [Binary64.add_finite]
    exact hsum sb (a + b)
  · rw [Binary64.sub_finite]
    exact hsum (!sb) (a - b)
  · rw [Binary64.mul_finite, signed_mul_signed]
    exact roundedTo_round _ _ unit64_pos
  · rw [Binary64.div_finite _ _ _ _ _ _ hb, signed_mul_signed, Nat.mul_comm (mag64 ea fa)]
    exact roundedTo_round _ _ (Nat.pos_of_ne_zero hb)

/-- Settles O5, for an integer of at most 53 bits is a significand at the exponent of 1.0. -/
theorem integersConvertExactly : Obligations.IntegersConvertExactly := by
  intro n hn
  obtain ⟨e, f, hfinite, hmag⟩ := ofInt_exact hn
  rw [hfinite, Binary64.place_finite, hmag, signed_mul, signed_decide_neg_natAbs, mul_comm]

/-- Settles O6: the widened datum has the magnitude of the narrow one, which is rounded to itself. -/
theorem wideningIsExactAndUndone : Obligations.WideningIsExactAndUndone := by
  intro s e f
  obtain ⟨e', f', hwide, hmag⟩ := from32_finite s e f
  rw [hwide, Binary64.place_finite, hmag]
  exact ⟨rfl, to32_of_mag64_eq_mag32 hmag⟩

/-- Settles O7: both are floors of integer quotients, by a positive divisor. -/
theorem integerPartsOfFiniteData : Obligations.IntegerPartsOfFiniteData := by
  intro s e f
  have hunit : (0 : Int) < unit64 := by exact_mod_cast unit64_pos
  simp only [Binary64.floorInt, Binary64.roundHalfUp]
  generalize signed s (mag64 e f) = x
  generalize (unit64 : Int) = u at hunit
  refine ⟨⟨Int.ediv_mul_le x hunit.ne', Int.lt_ediv_add_one_mul_self x hunit⟩, ?_⟩
  have hle := Int.ediv_mul_le (2 * x + u) (b := 2 * u) (by omega)
  have hlt := Int.lt_ediv_add_one_mul_self (2 * x + u) (b := 2 * u) (by omega)
  generalize (2 * x + u) / (2 * u) = q at hle hlt
  constructor <;> linarith

/-- Settles O28: a command's channel sees no write of another channel, of its own kind or of the other one. -/
theorem channelsAreIndependent : Obligations.ChannelsAreIndependent := by
  intro i s t c h
  cases hi : i.unit with
  | osc =>
    refine ⟨fun o hc => ?_, fun x _ => ?_⟩
    · have hc : c ≠ i.ch.toNat := by simpa using hc
      exact ⟨(unseenByOsc_setOsc hc o).exec hi h, exec_osc_other hi h hc⟩
    · exact ⟨(unseenByOsc_setFlt c _ x).exec hi h, by rw [exec_osc_flts hi h]⟩
  | flt =>
    refine ⟨fun o _ => ?_, fun x hc => ?_⟩
    · exact ⟨(unseenByFlt_setOsc c _ o).exec hi h, by rw [exec_flt_oscs hi h]⟩
    · have hc : c ≠ i.ch.toNat := by simpa using hc
      exact ⟨(unseenByFlt_setFlt hc x).exec hi h, exec_flt_other hi h hc⟩

/-- Settles O58: finite data by `roundedTo32_to32`, the rest by what the conversions are defined to give. -/
theorem narrowingRoundsToNearestEven : Obligations.NarrowingRoundsToNearestEven := by
  refine ⟨roundedTo32_to32, fun s => ⟨rfl, rfl⟩, fun x hx => ?_, fun s q => rfl⟩
  obtain ⟨s, q, rfl⟩ := Binary64.isNaN_iff.mp hx
  exact ⟨_, _, rfl⟩

/-- Settles O3: the arms of the operators for data that are not finite, and the zero tests in the rest. -/
theorem specialOperandsOfTheOperators : Obligations.SpecialOperandsOfTheOperators := by
  refine ⟨?_, ?_, ?_, ?_, ?_, ?_⟩
  · rintro op (rfl | rfl | rfl | rfl) a b h
    · rw [Binary64.add, Binary64.addOr_of_isNaN h, Binary64.isNaN_someNaN]
    · rw [Binary64.sub, Binary64.addOr_of_isNaN (by simpa using h), Binary64.isNaN_someNaN]
    · rw [Binary64.mul, Binary64.mulOr_of_isNaN h, Binary64.isNaN_someNaN]
    · rw [Binary64.div, Binary64.divOr_of_isNaN h, Binary64.isNaN_someNaN]
  · intro s
    simp [Binary64.add, Binary64.sub, Binary64.neg, Binary64.addOr]
  · intro s t e f
    constructor
    · intro hzero
      simp +contextual [Binary64.mul, Binary64.div, Binary64.mulOr, Binary64.divOr, hzero]
    · intro hnonzero e' f' hzero
      simp [Binary64.div, Binary64.divOr, hnonzero, hzero]
  · exact fun s t => ⟨rfl, rfl⟩
  · intro s
    simp [Binary64.add, Binary64.sub, Binary64.neg, Binary64.addOr]
  · intro s t e f
    refine ⟨rfl, rfl, rfl, rfl, fun hnonzero => ?_, rfl, rfl⟩
    simp [Binary64.mul, Binary64.mulOr, hnonzero]

/-- Settles O59: the sign is the top bit of every pattern, and the two operations leave the other fields. -/
theorem absAndNegActOnTheSignBit : Obligations.AbsAndNegActOnTheSignBit := by
  constructor
  · intro x
    cases x <;> exact ⟨(clear_top_bit _ _ _).symm, (flip_top_bit _ _ _).symm⟩
  · intro w
    cases w <;> exact (flip_top_bit _ _ _).symm

/-- Settles O60: the comparisons compare places, and those of finite data lie between those of the infinities. -/
theorem comparisonsAreOrdered : Obligations.ComparisonsAreOrdered := by
  refine ⟨?_, ?_, ?_, ?_, fun a b => ⟨rfl, rfl⟩⟩
  · intro sa ea fa sb eb fb a b
    obtain ⟨hlt, hle, heq⟩ := Binary64.compare_of_place (Binary64.place_finite sa ea fa) (Binary64.place_finite sb eb fb)
    simp [hlt, hle, heq, a, b]
  · intro x hx
    obtain ⟨s, e, f, rfl⟩ := Binary64.isFinite_iff.mp hx
    have hx := Binary64.place_finite s e f
    obtain ⟨hlo, hhi⟩ := signed_mag64_between s e f
    have hleft := fun t => Binary64.compare_of_place hx (Binary64.place_infinite t)
    have hright := fun t => Binary64.compare_of_place (Binary64.place_infinite t) hx
    simp [hleft, hright, hlo, hhi, hlo.le, hhi.le, hlo.ne', hhi.ne, hlo.ne, hhi.ne']
  · intro s t
    have hpos := infinity64_pos
    obtain ⟨hlt, hle, heq⟩ := Binary64.compare_of_place (Binary64.place_infinite s) (Binary64.place_infinite t)
    rw [hlt, hle, heq]
    cases s <;> cases t <;> simp <;> omega
  · intro a b h
    exact Binary64.compare_of_place_none (h.imp Binary64.place_of_isNaN Binary64.place_of_isNaN)

end Sys2Proof.Proofs
end

section
/-! PROOFS. What recording an error leaves (spec/60_exceptions.md R213 to R215): the model's own operations and the words of the rules
say the same. -/

namespace Sys2Proof.Machine

open Sys2Proof

/-- The STATUS bit of a cause is a 1 shifted to it. -/
theorem Cause.mask_eq (c : Cause) : c.mask = 1#64 <<< (c.code - 1) := by
  cases c <;> rfl

/-- The fields side by side are the fields shifted to their places. -/
theorem errinfoWord_eq (c : Cause) (info : BitVec 32) (regacc write : Bool) :
    errinfoWord c info regacc write = errorWord c.code info regacc write := by
  have hhigh : (0#22 ++ BitVec.ofBool write ++ BitVec.ofBool regacc ++ BitVec.ofNat 8 c.code).setWidth 64 <<< 32 =
      ((BitVec.ofBool write).setWidth 64 <<< 41) ||| ((BitVec.ofBool regacc).setWidth 64 <<< 40) |||
        (BitVec.ofNat 64 c.code <<< 32) := by
    cases c <;> cases regacc <;> cases write <;> rfl
  rw [errorWord, ← hhigh, ← BitVec.setWidth_append_eq_shiftLeft_setWidth_or, BitVec.setWidth_eq, errinfoWord]

/-- STATUS[5:0] is zero as a field exactly where it is zero under the mask. -/
theorem statusField_eq_zero_iff (status : BitVec 64) : status.extractLsb' 0 6 = 0#6 ↔ status &&& 0x3F#64 = 0#64 := by
  rw [← BitVec.toNat_inj, ← BitVec.toNat_inj, BitVec.toNat_and]
  have := Nat.and_two_pow_sub_one_eq_mod status.toNat 6
  simpa using this ▸ Iff.rfl

/-- Recording an error is what R214 says of it. -/
theorem State.recordError_eq (s : State) (c : Cause) (info : BitVec 32) (regacc write : Bool) :
    s.recordError c info regacc write = recorded c.code info regacc write s := by
  simp only [State.recordError, State.setErrinfo, State.setStatus, statusAfterError, Cause.mask_eq, errinfoAfterError,
    errinfoWord_eq, statusField_eq_zero_iff]
  rfl

/-- Raising an error is what R215 says of it. -/
theorem State.raiseError_eq (s : State) (c : Cause) : s.raiseError c = raised c.code s := by
  rw [raised, ← State.recordError_eq, BitVec.setWidth_eq_extractLsb' (by omega)]
  rfl

end Sys2Proof.Machine
end

section
/-! PROOFS. Where an access of the window goes (spec/20_memory.md R63, R64) and what the host's writes and reads make of the registers
(spec/10_state.md R22 to R29). -/

namespace Sys2Proof.Machine

open Sys2Proof

/-! ### The register of an offset -/

/-- No register is addressed by another size, off a multiple of 8, or at the reserved offset. -/
theorem regAt_eq_none {off size : Nat} (h : off < 64) (hbad : size ≠ 8 ∨ off % 8 ≠ 0 ∨ off = 0x38) : regAt off size = none := by
  by_cases hsize : size = 8
  · have aligned : ∀ off < 64, off % 8 ≠ 0 ∨ off = 0x38 → regAt off 8 = none := by decide
    subst hsize
    exact aligned off h (hbad.resolve_left fun h => h rfl)
  · exact if_neg hsize

/-- A write is refused where no register is addressed, or one that the host only reads (R22, R25, R27). -/
theorem regAt_refused {off size : Nat} (h : off < 64) (hbad : size ≠ 8 ∨ off % 8 ≠ 0 ∨ off ∈ [0x00, 0x18, 0x28, 0x38]) :
    regAt off size = none ∨ regAt off size = some .id ∨ regAt off size = some .result ∨ regAt off size = some .errinfo := by
  by_cases hsize : size = 8
  · have listed : ∀ off < 64, off % 8 ≠ 0 ∨ off ∈ [0x00, 0x18, 0x28, 0x38] →
        regAt off 8 = none ∨ regAt off 8 = some .id ∨ regAt off 8 = some .result ∨ regAt off 8 = some .errinfo := by decide
    subst hsize
    exact listed off h (hbad.resolve_left fun h => h rfl)
  · exact .inl (if_neg hsize)

/-- CMD is addressed by 8 bytes at its offset alone. -/
theorem regAt_eq_cmd {off size : Nat} (h : off < 64) (hr : regAt off size = some .cmd) : off = 0x10 ∧ size = 8 := by
  by_cases hsize : size = 8
  · have only : ∀ off < 64, regAt off 8 = some .cmd → off = 0x10 := by decide
    subst hsize
    exact ⟨only off h hr, rfl⟩
  · have hnone : regAt off size = none := if_neg hsize
    rw [hnone] at hr
    cases hr

/-! ### Accesses by offset -/

variable {s : State} {rest : List BusEvent} {off size : Nat} {v : BitVec 64}

/-- A step whose access is a read of the window is that read. -/
theorem step_read (h : off < 64) (hp : s.pending = .read (s.params.base + off) size :: rest) :
    step s = .next (hostRead off size (s.begin rest)) := by
  rw [step_cons hp]
  simp only [perform, State.begin, State.setReadData_params, State.setPending_params, windowOffset_add s.params h]

/-- A step whose access is a write of the window is that write. -/
theorem step_write (h : off < 64) (hp : s.pending = .write (s.params.base + off) size v :: rest) :
    step s = hostWrite off size v (s.begin rest) := by
  rw [step_cons hp]
  simp only [perform, State.begin, State.setReadData_params, State.setPending_params, windowOffset_add s.params h]

/-- A legal read. -/
theorem hostRead_of_some {r : Reg} (hr : regAt off size = some r) : hostRead off size s = s.setReadData (some (s.regValue r)) := by
  simp only [hostRead, hr]

/-- An illegal read (R64). -/
theorem hostRead_of_none (hr : regAt off size = none) :
    hostRead off size s = (s.busError off false).setReadData (some 0#64) := by
  simp only [hostRead, hr]

/-- An illegal write (R64), or one of a register that is only read (R22, R25, R27). -/
theorem hostWrite_of_refused
    (hr : regAt off size = none ∨ regAt off size = some .id ∨ regAt off size = some .result ∨ regAt off size = some .errinfo) :
    hostWrite off size v s = .next (s.busError off true) := by
  rcases hr with hr | hr | hr | hr <;> simp only [hostWrite, hr]

/-! ### The values of registers -/

/-- SAMPLE_RATE reads with bits [63:32] zero (R28). -/
theorem State.regValue_sampleRate (s : State) : s.regValue .sampleRate = s.sampleRate.setWidth 64 := by
  rw [State.regValue, BitVec.setWidth_eq_append (by omega)]
  rfl

/-- A STATUS write, bit by bit (R26). -/
theorem getLsbD_statusAfterClear (v status : BitVec 64) {i : Nat} (hi : i < 64) :
    (statusAfterClear v status).getLsbD i = (status.getLsbD i && !(decide (i < 6) && v.getLsbD i)) := by
  have hbits : ∀ i < 64, statusBits.getLsbD i = decide (i < 6) := by decide
  simp only [statusAfterClear, BitVec.getLsbD_and, BitVec.getLsbD_not, hbits i hi, hi, decide_true, Bool.true_and, Bool.and_comm]

/-- A field that lies wholly in the high part of a word. -/
theorem extract_above {v w start len : Nat} {high : BitVec v} {low : BitVec w} {field : BitVec len} (hstart : w ≤ start)
    (h : high.extractLsb' (start - w) len = field) : (high ++ low).extractLsb' start len = field :=
  (BitVec.extractLsb'_append_eq_of_le hstart).trans h

/-- The fields of ID where the parameters fit them (R22). -/
theorem idWord_fields {p : Params} (hosc : p.numOsc ≤ 256) (hflt : p.numFlt ≤ 256) (hmax : p.maxN < 2 ^ 32) :
    (idWord p).extractLsb' 0 8 = p.specRev ∧ ((idWord p).extractLsb' 8 8).toNat = p.numOsc - 1 ∧
      ((idWord p).extractLsb' 16 8).toNat = p.numFlt - 1 ∧ (idWord p).extractLsb' 24 8 = 0#8 ∧
      ((idWord p).extractLsb' 32 32).toNat = p.maxN := by
  have hnumOsc : (idWord p).extractLsb' 8 8 = BitVec.ofNat 8 (p.numOsc - 1) :=
    extract_above (by omega) BitVec.extractLsb'_append_eq_right
  have hnumFlt : (idWord p).extractLsb' 16 8 = BitVec.ofNat 8 (p.numFlt - 1) :=
    extract_above (by omega) <| extract_above (by omega) BitVec.extractLsb'_append_eq_right
  have hzero : (idWord p).extractLsb' 24 8 = 0#8 :=
    extract_above (by omega) <| extract_above (by omega) <| extract_above (by omega) BitVec.extractLsb'_append_eq_right
  have hmaxN : (idWord p).extractLsb' 32 32 = BitVec.ofNat 32 p.maxN :=
    extract_above (by omega) <| extract_above (by omega) <| extract_above (by omega) BitVec.extractLsb'_append_eq_left
  rw [hnumOsc, hnumFlt, hzero, hmaxN, BitVec.toNat_ofNat, BitVec.toNat_ofNat, BitVec.toNat_ofNat]
  exact ⟨BitVec.extractLsb'_append_eq_right, by omega, by omega, rfl, by omega⟩

end Sys2Proof.Machine
end

section
/-! PROOFS. Numbers that the invariant turns on: the clamp of FC (spec/41_filter.md R162), the sign of a phase (spec/40_oscillator.md
R140), table sizes and coefficients (R34). -/

namespace Sys2Proof

open Sys2Proof.Machine

/-! ### Order -/

namespace Binary64

theorem le_iff {a b : Binary64} : a.le b = true ↔ ∃ x y, a.place = some x ∧ b.place = some y ∧ x ≤ y := by
  cases ha : a.place <;> cases hb : b.place <;> simp [le, ha, hb]

theorem lt_iff {a b : Binary64} : a.lt b = true ↔ ∃ x y, a.place = some x ∧ b.place = some y ∧ x < y := by
  cases ha : a.place <;> cases hb : b.place <;> simp [lt, ha, hb]

protected theorem le_trans {a b c : Binary64} (hab : a.le b = true) (hbc : b.le c = true) : a.le c = true := by
  obtain ⟨x, y, ha, hb, hxy⟩ := le_iff.mp hab
  obtain ⟨y', z, hb', hc, hyz⟩ := le_iff.mp hbc
  obtain rfl : y = y' := Option.some_injective _ (hb.symm.trans hb')
  exact le_iff.mpr ⟨x, z, ha, hc, hxy.trans hyz⟩

protected theorem lt_trans {a b c : Binary64} (hab : a.lt b = true) (hbc : b.lt c = true) : a.lt c = true := by
  obtain ⟨x, y, ha, hb, hxy⟩ := lt_iff.mp hab
  obtain ⟨y', z, hb', hc, hyz⟩ := lt_iff.mp hbc
  obtain rfl : y = y' := Option.some_injective _ (hb.symm.trans hb')
  exact lt_iff.mpr ⟨x, z, ha, hc, hxy.trans hyz⟩

theorem le_eq_false_of_lt {a b : Binary64} (h : a.lt b = true) : b.le a = false := by
  obtain ⟨x, y, ha, hb, hxy⟩ := lt_iff.mp h
  simp [le, ha, hb, hxy]

theorem lt_eq_false_of_lt {a b : Binary64} (h : a.lt b = true) : b.lt a = false := by
  obtain ⟨x, y, ha, hb, hxy⟩ := lt_iff.mp h
  simp [lt, ha, hb, hxy.le]

@[simp] theorem place_zero : zero.place = some 0 := by decide +kernel

/-- A number with a clear sign is not below zero. -/
theorem zero_le_of_sign {x : Binary64} (hsign : x.sign = false) (hnan : x.isNaN = false) : zero.le x = true := by
  rw [le_iff]
  cases x with
  | finite s e f =>
    obtain rfl : s = false := hsign
    exact ⟨0, _, place_zero, rfl, Int.natCast_nonneg _⟩
  | infinite s =>
    obtain rfl : s = false := hsign
    exact ⟨0, _, place_zero, rfl, infinity64_pos.le⟩
  | nan s q => cases hnan

end Binary64

/-! ### Sums with a clear sign -/

/-- A magnitude that is not zero is not rounded to zero: the least positive code is nearer. -/
theorem roundCode_pos {p num : Nat} (hp : 1 ≤ p) (hnum : 0 < num) : 0 < roundCode p num 1 := by
  by_contra hzero
  obtain ⟨hnear, _⟩ := roundCode_nearest (num := num) hp Nat.one_pos 1
  have hone : codeValue p 1 = 1 := by
    have := codeValue_scaled (p := p) (k := 0) (m := 1) Nat.one_le_two_pow (.inl rfl)
    simpa using this
  rw [Nat.eq_zero_of_not_pos hzero, hone, codeValue_zero, abs_eq_max_neg, abs_eq_max_neg] at hnear
  omega

namespace Binary64

/-- A magnitude that is not zero, rounded with a minus sign, is below zero. -/
theorem round_true_lt_zero {num : Nat} (hnum : 0 < num) : (round true num 1).lt zero = true := by
  obtain ⟨hnan, hsign, _⟩ := roundedTo_round true num Nat.one_pos
  rw [lt_iff]
  cases h : round true num 1 with
  | finite s e f =>
    obtain ⟨rfl, hmag, _⟩ := round_eq_finite h
    have hpos : 0 < mag64 e f := by
      rw [hmag, ← codeValue_zero 52]
      exact codeValue_strictMono 52 (roundCode_pos (by omega) hnum)
    exact ⟨_, 0, place_finite _ _ _, place_zero, by simp only [signed, if_true]; omega⟩
  | infinite s =>
    rw [h] at hsign
    obtain rfl : s = true := hsign
    exact ⟨_, 0, place_infinite _, place_zero, by simpa using infinity64_pos⟩
  | nan s q =>
    rw [h] at hnan
    cases hnan

theorem zero_le_infinite (s : Bool) : zero.le (infinite s) = !s := by
  have hpos := infinity64_pos
  rw [(compare_of_place place_zero (place_infinite s)).2.1]
  cases s <;> simp <;> omega

/-- A sum of a term with a clear sign that is not below zero has a clear sign: it is `-0.0` only where both terms are minus. -/
theorem sign_addOr {bad a b : Binary64} (hbad : bad.isNaN = true) (ha : a.sign = false) (h : zero.le (addOr bad a b) = true) :
    (addOr bad a b).sign = false := by
  have hnan : zero.le bad = false := (compare_of_place_none (.inr (place_of_isNaN hbad))).2.1
  cases a with
  | finite s e f =>
    obtain rfl : s = false := ha
    cases b with
    | finite s' e' f' =>
      simp only [addOr] at h ⊢
      generalize signed false (mag64 e f) + signed s' (mag64 e' f') = x at h ⊢
      rw [sign_round, sumSign]
      split
      · rfl
      · by_contra hneg
        rw [sumSign, if_neg ‹_›, Bool.eq_true_of_not_eq_false hneg, le_eq_false_of_lt (round_true_lt_zero (by omega))] at h
        cases h
    | infinite s' =>
      rw [addOr, zero_le_infinite] at h
      exact Bool.not_eq_true' s' |>.mp h
    | nan s' q => exact absurd h (by simp [addOr, hnan])
  | infinite s =>
    obtain rfl : s = false := ha
    cases b with
    | finite s' e' f' => rfl
    | infinite s' =>
      rw [addOr] at h ⊢
      split at h
      · next hs => rw [if_pos hs]; rfl
      · rw [hnan] at h; cases h
    | nan s' q => exact absurd h (by simp [addOr, hnan])
  | nan s q => exact absurd h (by simp [addOr, hnan])

theorem sign_add {a b : Binary64} (ha : a.sign = false) (h : zero.le (a.add b) = true) : (a.add b).sign = false :=
  sign_addOr (isNaN_someNaN ..) ha h

theorem sign_sub {a b : Binary64} (ha : a.sign = false) (h : zero.le (a.sub b) = true) : (a.sub b).sign = false :=
  sign_addOr (isNaN_someNaN ..) ha h

/-! ### Table sizes -/

theorem zero_le_ofInt (n : Nat) : zero.le (ofInt n) = true := by
  refine zero_le_of_sign ?_ (roundedTo_round _ _ Nat.one_pos).1
  rw [ofInt, sign_round]
  simp

/-- `f64(n)` of a natural number of at most 53 bits. -/
theorem ofInt_natCast {n : Nat} (hn : n ≤ 2 ^ 53) : ∃ e f, ofInt n = finite false e f ∧ mag64 e f = unit64 * n := by
  have hsign : decide ((n : Int) < 0) = false := decide_eq_false (by omega)
  rw [← hsign]
  exact ofInt_exact (by rw [Nat.abs_cast]; exact_mod_cast hn)

theorem zero_lt_ofInt {n : Nat} (h1 : 1 ≤ n) (h2 : n ≤ 2 ^ 53) : zero.lt (ofInt n) = true := by
  obtain ⟨e, f, hfinite, hmag⟩ := ofInt_natCast h2
  have hpos : 0 < mag64 e f := hmag ▸ Nat.mul_pos unit64_pos h1
  exact lt_iff.mpr ⟨0, _, place_zero, by rw [hfinite]; rfl, Int.natCast_pos.mpr hpos⟩

end Binary64

namespace Machine

/-- The coefficient of a table of less than 2^32 entries is finite at every sample rate (R34). -/
theorem isFinite_buildCoeff {n rate : Nat} (hn : n < 2 ^ 32) (hrate : 1 ≤ rate) (hrate' : rate < 2 ^ 32) :
    (buildCoeff n rate).isFinite = true := by
  obtain ⟨en, fn, hfn, hmn⟩ := Binary64.ofInt_natCast (n := n) (by omega)
  obtain ⟨er, fr, hfr, hmr⟩ := Binary64.ofInt_natCast (n := rate) (by omega)
  have hden : 0 < mag64 er fr := hmr ▸ Nat.mul_pos unit64_pos hrate
  rw [buildCoeff, hfn, hfr, Binary64.div_finite _ _ _ _ _ _ hden.ne', isFinite_round_iff hden, hmn, hmr, Int.abs_eq_natAbs,
    natAbs_signed]
  have hunit : (0 : Int) < unit64 := by exact_mod_cast unit64_pos
  have hover : (unit64 : Int) * 2 ^ 32 < overflow64 := by decide +kernel
  have hover0 : 0 < overflow64 := by decide +kernel
  push_cast
  calc (unit64 : Int) * (unit64 * n) ≤ unit64 * (unit64 * 2 ^ 32) := by gcongr; exact_mod_cast hn.le
    _ < unit64 * overflow64 := by gcongr
    _ ≤ unit64 * rate * overflow64 := by
      gcongr
      exact le_mul_of_one_le_right hunit.le (by exact_mod_cast hrate)

/-- An accepted phase advanced from one with a clear sign has a clear sign (R35, R140). -/
theorem sign_advance {o : OscChannel} {freq : Binary64} (hsign : o.phase.sign = false)
    (h : o.accepts (o.advance freq) = true) : (o.advance freq).sign = false := by
  rw [OscChannel.accepts, Bool.and_eq_true] at h
  obtain ⟨hzero, -⟩ := h
  revert hzero
  simp only [OscChannel.advance, wrapOnce]
  split
  · next hwrap => exact Binary64.sign_sub (Binary64.sign_add hsign (Binary64.le_trans (Binary64.zero_le_ofInt o.n) hwrap))
  · exact Binary64.sign_add hsign

/-! ### The cutoff clamp (R162) -/

theorem fcMin_lt_fcMax : Binary64.fcMin.lt .fcMax = true := by decide +kernel

theorem clampFc_of_between {v : Binary64} (hlo : v.ge .fcMin = true) (hhi : v.le .fcMax = true) : clampFc v = v := by
  simp [clampFc, hlo, hhi]

theorem clampFc_of_gt {v : Binary64} (h : v.gt .fcMax = true) : clampFc v = .fcMax := by
  simp [clampFc, h, Binary64.le_eq_false_of_lt h]

theorem clampFc_of_outside {v : Binary64} (hout : ¬(v.ge .fcMin = true ∧ v.le .fcMax = true)) (hgt : v.gt .fcMax = false) :
    clampFc v = .fcMin := by
  simp [clampFc, hout, hgt]

theorem clampFc_of_lt {v : Binary64} (h : v.lt .fcMin = true) : clampFc v = .fcMin := by
  have hlo : v.ge .fcMin = false := Binary64.le_eq_false_of_lt h
  exact clampFc_of_outside (by simp [hlo]) (Binary64.lt_eq_false_of_lt (Binary64.lt_trans h fcMin_lt_fcMax))

theorem clampFc_of_isNaN {v : Binary64} (h : v.isNaN = true) : clampFc v = .fcMin := by
  obtain ⟨hgt, -, -⟩ := Binary64.compare_of_place_none (a := .fcMax) (.inr (Binary64.place_of_isNaN h))
  obtain ⟨-, hge, -⟩ := Binary64.compare_of_place_none (a := .fcMin) (.inr (Binary64.place_of_isNaN h))
  have hlo : v.ge .fcMin = false := hge
  exact clampFc_of_outside (by simp [hlo]) hgt

/-- The clamped value lies in the range, whatever it was. -/
theorem clampFc_between (v : Binary64) : (clampFc v).ge .fcMin = true ∧ (clampFc v).le .fcMax = true := by
  by_cases hin : v.ge .fcMin = true ∧ v.le .fcMax = true
  · rw [clampFc_of_between hin.1 hin.2]
    exact hin
  · cases hgt : v.gt .fcMax with
    | true =>
      rw [clampFc_of_gt hgt]
      decide +kernel
    | false =>
      rw [clampFc_of_outside hin hgt]
      decide +kernel

end Machine

end Sys2Proof
end

section
/-! PROOFS. Every step keeps the invariant of the block (`State.Inv`): first each part of it under the operations that change that part,
then each command, each access, each step. -/

namespace Sys2Proof.Machine

open Sys2Proof

/-! ### STATUS and ERRINFO (R26, R27, R213, R214) -/

/-- The ERRINFO word of an error has zero reserved bits and its code as CAUSE. -/
theorem errinfoWord_fields (c : Cause) (info : BitVec 32) (regacc write : Bool) :
    (errinfoWord c info regacc write).extractLsb' 42 22 = 0#22 ∧
      ((errinfoWord c info regacc write).extractLsb' 32 8).toNat = c.code := by
  have hreserved : (errinfoWord c info regacc write).extractLsb' 42 22 = 0#22 :=
    extract_above (by omega) <| extract_above (by omega) <| extract_above (by omega) BitVec.extractLsb'_append_eq_left
  have hcause : (errinfoWord c info regacc write).extractLsb' 32 8 = BitVec.ofNat 8 c.code :=
    extract_above (by omega) BitVec.extractLsb'_append_eq_right
  refine ⟨hreserved, ?_⟩
  rw [hcause]
  cases c <;> rfl

theorem ErrorRegistersSound.afterError {status errinfo : BitVec 64} (h : ErrorRegistersSound status errinfo) (c : Cause)
    (info : BitVec 32) (regacc write : Bool) :
    ErrorRegistersSound (statusAfterError c status) (errinfoAfterError (errinfoWord c info regacc write) status errinfo) := by
  obtain ⟨hstatus, hreserved, hcause, hset⟩ := h
  have hmask : c.mask.extractLsb' 6 58 = 0#58 := by cases c <;> decide
  have hcode : 1 ≤ c.code ∧ c.code ≤ 6 := by cases c <;> decide
  obtain ⟨hword, hwordCause⟩ := errinfoWord_fields c info regacc write
  refine ⟨?_, ?_⟩
  · rw [statusAfterError, BitVec.extractLsb'_or, hstatus, hmask]
    rfl
  · unfold errinfoAfterError
    split
    · rw [hword, hwordCause]
      exact ⟨rfl, hcode.2, fun _ => by omega⟩
    · next hfirst =>
      have hne : status ≠ 0#64 := by rintro rfl; exact hfirst rfl
      exact ⟨hreserved, hcause, fun _ => hset hne⟩

theorem ErrorRegistersSound.afterClear {status errinfo : BitVec 64} (h : ErrorRegistersSound status errinfo) (v : BitVec 64) :
    ErrorRegistersSound (statusAfterClear v status) errinfo := by
  obtain ⟨hstatus, hreserved, hcause, hset⟩ := h
  refine ⟨?_, hreserved, hcause, fun hne => hset ?_⟩
  · rw [statusAfterClear, BitVec.extractLsb'_and, hstatus, BitVec.zero_and]
  · rintro rfl
    exact hne BitVec.zero_and

/-! ### Oscillator channels (R33 to R36, R120, R137, R141) -/

theorem OscChannel.sound_reset (p : Params) : OscChannel.reset.sound p :=
  ⟨fun _ => rfl, ⟨rfl, fun _ _ => rfl⟩, fun h => Bool.noConfusion (show false = true from h)⟩

theorem OscChannel.sound.build {p : Params} {o : OscChannel} (h : o.sound p) (w : Waveform) (interp : Bool) {n rate : Nat}
    (hp : p.maxN < 2 ^ 32) (hn : 1 ≤ n) (hmax : n ≤ p.maxN) (hrate : 1 ≤ rate ∧ rate < 2 ^ 32) :
    (o.build w interp n rate).sound p := by
  obtain ⟨-, ⟨hwf, hbeyond⟩, -⟩ := h
  have hn53 : n ≤ 2 ^ 53 := by omega
  refine ⟨fun h => Bool.noConfusion (show true = false from h), ⟨Memory.wf_fill _ n hwf, fun i hi => ?_⟩,
    fun _ => ⟨⟨hn, hmax⟩, Binary64.zero_le_of_sign rfl rfl, Binary64.zero_lt_ofInt hn hn53, rfl,
      isFinite_buildCoeff (by omega) hrate.1 hrate.2, fun i hi => ?_⟩⟩
  · rw [OscChannel.build, Memory.read_fill, if_neg (by omega)]
    exact hbeyond i hi
  · have hi : i < n := hi
    rw [OscChannel.build, Memory.read_fill, if_pos hi]
    rfl

theorem OscChannel.sound.play {p : Params} {o : OscChannel} (h : o.sound p) (hb : o.built = true) {freq : Binary64}
    (ha : o.accepts (o.advance freq) = true) : OscChannel.sound p { o with phase := o.advance freq } := by
  obtain ⟨-, htable, hbuilt⟩ := h
  obtain ⟨hn, -, -, hsign, hcoeff, hentries⟩ := hbuilt hb
  obtain ⟨hzero, hlt⟩ : (o.advance freq).ge .zero = true ∧ (o.advance freq).lt (.ofInt o.n) = true := by
    simpa [OscChannel.accepts] using ha
  exact ⟨fun h => Bool.noConfusion (hb.symm.trans h), htable,
    fun _ => ⟨hn, hzero, hlt, sign_advance hsign ha, hcoeff, hentries⟩⟩

/-! ### Filter channels (R37, R41, R168, R169, R176, R177) -/

theorem FltChannel.sound_reset : FltChannel.reset.sound := by decide +kernel

namespace FltChannel.sound

variable {x : FltChannel} (h : x.sound)
include h

theorem withGains (k amp : Binary64) : FltChannel.sound { x with k := k, amp := amp } := h

theorem withHighpass (ah bh : Binary64) : FltChannel.sound { x with ah := ah, bh := bh } := h

theorem withCutoff (v : Binary64) : FltChannel.sound { x with fc := clampFc v } := ⟨h.1, clampFc_between v⟩

theorem withLadder {z : Ladder} (hz : z.isFinite = true) : FltChannel.sound { x with z := z } := ⟨hz, h.2⟩

end FltChannel.sound

/-! ### The invariant under the operations that commands and accesses share -/

/-- A block of legal parameters meets the invariant after reset. -/
theorem resetWith_inv {p : Params} (hp : p.legal) : (State.resetWith p).Inv := by
  have ⟨_, _, _, hrate, _⟩ := hp
  have herrors : ErrorRegistersSound 0#64 0#64 := by decide
  refine ⟨hp, List.length_replicate, List.length_replicate, hrate, herrors, fun o ho => ?_, fun x hx => ?_⟩
  · obtain ⟨-, rfl⟩ := List.mem_replicate.mp ho
    exact OscChannel.sound_reset p
  · obtain ⟨-, rfl⟩ := List.mem_replicate.mp hx
    exact FltChannel.sound_reset

namespace State.Inv

variable {s : State} (h : s.Inv)
include h

theorem setResult (v : BitVec 64) : (s.setResult v).Inv := h

theorem setCmd (v : BitVec 64) : (s.setCmd v).Inv := h

theorem setOperand (v : BitVec 64) : (s.setOperand v).Inv := h

theorem setReadData (v : Option (BitVec 64)) : (s.setReadData v).Inv := h

theorem begin (rest : List BusEvent) : (s.begin rest).Inv := h

theorem recordError (c : Cause) (info : BitVec 32) (regacc write : Bool) : (s.recordError c info regacc write).Inv := by
  obtain ⟨hp, hosc, hflt, hrate, herr, hoscs, hflts⟩ := h
  exact ⟨hp, hosc, hflt, hrate, herr.afterError c info regacc write, hoscs, hflts⟩

theorem raiseError (c : Cause) : (s.raiseError c).Inv := recordError h c s.commandWord false false

theorem acknowledge (v : BitVec 64) : (s.acknowledge v).Inv := by
  obtain ⟨hp, hosc, hflt, hrate, herr, hoscs, hflts⟩ := h
  exact ⟨hp, hosc, hflt, hrate, herr.afterClear v, hoscs, hflts⟩

theorem setRate {v : BitVec 32} (hv : v ≠ 0#32) : (s.setRate v).Inv := by
  obtain ⟨hp, hosc, hflt, -, herr, hoscs, hflts⟩ := h
  exact ⟨hp, hosc, hflt, hv, herr, hoscs, hflts⟩

theorem setOsc {o : OscChannel} (c : Nat) (ho : o.sound s.params) : (s.setOsc c o).Inv := by
  obtain ⟨hp, hosc, hflt, hrate, herr, hoscs, hflts⟩ := h
  exact ⟨hp, by simpa using hosc, hflt, hrate, herr, List.forall_mem_set hoscs ho, hflts⟩

theorem setFlt {x : FltChannel} (f : Nat) (hx : x.sound) : (s.setFlt f x).Inv := by
  obtain ⟨hp, hosc, hflt, hrate, herr, hoscs, hflts⟩ := h
  exact ⟨hp, hosc, by simpa using hflt, hrate, herr, hoscs, List.forall_mem_set hflts hx⟩

theorem afterReset : s.afterReset.Inv := resetWith_inv h.1

theorem sound_osc {c : Nat} (hc : c < s.params.numOsc) : (s.osc c).sound s.params := by
  obtain ⟨-, hosc, -, -, -, hoscs, -⟩ := h
  exact hoscs _ (State.osc_mem (hosc ▸ hc))

theorem sound_flt {f : Nat} (hf : f < s.params.numFlt) : (s.flt f).sound := by
  obtain ⟨-, -, hflt, -, -, -, hflts⟩ := h
  exact hflts _ (State.flt_mem (hflt ▸ hf))

/-- A sample rate that is not zero, as a number. -/
theorem rate_range : 1 ≤ s.rate ∧ s.rate < 2 ^ 32 := by
  obtain ⟨-, -, -, hrate, -⟩ := h
  refine ⟨Nat.one_le_iff_ne_zero.mpr fun h0 => hrate (BitVec.eq_of_toNat_eq h0), s.sampleRate.isLt⟩

theorem maxN_lt : s.params.maxN < 2 ^ 32 := by
  obtain ⟨⟨-, -, ⟨-, hmax⟩, -⟩, -⟩ := h
  omega

end State.Inv

/-! ### Commands -/

/-- Every command keeps the invariant. -/
theorem exec_inv {i : Instr} {s t : State} (h : s.Inv) (ht : exec i s = .next t) : t.Inv := by
  cases i with
  | oscBuild ch kind interp defsize =>
    obtain ⟨-, rfl⟩ | rfl | ⟨w, hch, -, -, hn, hmax, rfl⟩ := execOscBuild_cases ht
    · exact h.raiseError _
    · exact h.raiseError _
    · exact (h.setOsc _ ((h.sound_osc hch).build w interp h.maxN_lt hn hmax h.rate_range)).setResult _
  | oscPlay ch =>
    obtain ⟨-, rfl⟩ | ⟨-, rfl⟩ | ⟨-, rfl⟩ | ⟨hch, hbuilt, haccepts, rfl⟩ := execOscPlay_cases ht
    · exact h.raiseError _
    · exact h.raiseError _
    · exact h.raiseError _
    · exact (h.setOsc _ ((h.sound_osc hch).play hbuilt haccepts)).setResult _
  | oscRead ch sel =>
    obtain ⟨_, rfl⟩ | ⟨_, rfl⟩ := execOscRead_cases ht
    · exact h.raiseError _
    · exact h.setResult _
  | fltSetQ ch =>
    obtain ⟨-, rfl⟩ | ⟨hch, _, _, rfl⟩ := execFltSetQ_cases ht
    · exact h.raiseError _
    · exact (h.setFlt _ ((h.sound_flt hch).withGains _ _)).setResult _
  | fltSetHpf ch =>
    obtain ⟨-, rfl⟩ | ⟨hch, _, _, rfl⟩ := execFltSetHpf_cases ht
    · exact h.raiseError _
    · exact (h.setFlt _ ((h.sound_flt hch).withHighpass _ _)).setResult _
  | fltSetFc ch =>
    obtain ⟨-, rfl⟩ | ⟨hch, rfl⟩ := execFltSetFc_cases ht
    · exact h.raiseError _
    · exact (h.setFlt _ ((h.sound_flt hch).withCutoff _)).setResult _
  | fltReset ch =>
    obtain ⟨-, rfl⟩ | rfl | ⟨hch, rfl⟩ := execFltReset_cases ht
    · exact h.raiseError _
    · exact h.setResult _
    · exact (h.setFlt _ ((h.sound_flt hch).withLadder rfl)).setResult _
  | fltRun ch =>
    obtain ⟨-, rfl⟩ | ⟨hch, hfinite, rfl⟩ | ⟨hch, -, rfl⟩ := execFltRun_cases ht
    · exact h.raiseError _
    · exact (h.setFlt _ ((h.sound_flt hch).withLadder (Bool.and_eq_true_iff.mp hfinite).2)).setResult _
    · exact (h.setFlt _ ((h.sound_flt hch).withLadder rfl)).recordError _ _ _ _ |>.setResult _
  | fltRead ch sel =>
    obtain ⟨-, rfl⟩ | ⟨-, rfl⟩ := execFltRead_cases ht
    · exact h.raiseError _
    · exact h.setResult _

/-! ### Accesses and steps -/

/-- Whatever the host does, the invariant and the parameters stay. -/
theorem Effect.inv {s t : State} {e : BusEvent} (heff : Effect s e t) (h : s.Inv) : t.Inv ∧ t.params = s.params := by
  cases heff with
  | reset => exact ⟨h.afterReset, rfl⟩
  | outsideRead => exact ⟨h, rfl⟩
  | outsideWrite => exact ⟨h, rfl⟩
  | read => exact ⟨h.setReadData _, rfl⟩
  | badRead => exact ⟨(h.recordError _ _ _ _).setReadData _, rfl⟩
  | operand => exact ⟨h.setOperand _, rfl⟩
  | command _ _ _ hexec => exact ⟨exec_inv (h.setCmd _) hexec, (exec_unchanged hexec).1⟩
  | badCommand => exact ⟨(h.setCmd _).raiseError _, rfl⟩
  | status => exact ⟨h.acknowledge _, rfl⟩
  | rate _ _ hv => exact ⟨h.setRate hv.2, rfl⟩
  | badRate => exact ⟨h.recordError _ _ _ _, rfl⟩
  | badWrite => exact ⟨h.recordError _ _ _ _, rfl⟩

/-- Every step keeps the invariant and the parameters. -/
theorem step_inv {s t : State} (h : s.Inv) (ht : step s = .next t) : t.Inv ∧ t.params = s.params := by
  obtain ⟨-, rfl⟩ | ⟨e, rest, -, heff⟩ := step_effect ht
  · exact ⟨h, rfl⟩
  · exact heff.inv (h.begin rest)

end Sys2Proof.Machine
end

section
/-! PROOFS. What commands do not depend on: RESULT (spec/10_state.md R25), STATUS and ERRINFO (R42). -/

namespace Sys2Proof.Machine

open Sys2Proof

/-- What RESULT held makes no difference: every way a command ends writes RESULT, and none reads it. -/
theorem exec_setResult (i : Instr) (s : State) (r : BitVec 64) : exec i (s.setResult r) = exec i s := by
  cases i with
  | oscBuild ch kind interp defsize => rfl
  | oscPlay ch => rfl
  | oscRead ch sel => cases sel <;> rfl
  | fltSetQ ch => rfl
  | fltSetHpf ch => rfl
  | fltSetFc ch => rfl
  | fltReset ch => rfl
  | fltRun ch => rfl
  | fltRead ch sel => rfl

/-! ### STATUS and ERRINFO -/

/-- The state with other error registers. -/
def State.withErrors (s : State) (status errinfo : BitVec 64) : State := { s with status := status, errinfo := errinfo }

/-- What is left of a state when the error registers are forgotten. -/
def State.forgetErrors (s : State) : State := s.withErrors 0#64 0#64

section

variable {s : State} {status errinfo : BitVec 64} {ch : BitVec 8}

/-- A command on an oscillator channel leaves the same but for the error registers, if what it does there does. -/
theorem forgetErrors_onOsc {act : State → Nat → OscChannel → State}
    (hact : ∀ o, (act (s.withErrors status errinfo) ch.toNat o).forgetErrors = (act s ch.toNat o).forgetErrors) :
    ((s.withErrors status errinfo).onOsc ch act).forgetErrors = (s.onOsc ch act).forgetErrors := by
  simp only [State.onOsc, apply_ite State.forgetErrors, hact]
  rfl

theorem forgetErrors_onFlt {act : State → Nat → FltChannel → State}
    (hact : ∀ x, (act (s.withErrors status errinfo) ch.toNat x).forgetErrors = (act s ch.toNat x).forgetErrors) :
    ((s.withErrors status errinfo).onFlt ch act).forgetErrors = (s.onFlt ch act).forgetErrors := by
  simp only [State.onFlt, apply_ite State.forgetErrors, hact]
  rfl

/-- Commands take the same branch and leave the same but for the error registers, whatever those held. -/
theorem exec_withErrors {i : Instr} {t : State} (h : exec i s = .next t) :
    ∃ u, exec i (s.withErrors status errinfo) = .next u ∧ u.forgetErrors = t.forgetErrors := by
  cases i with
  | oscBuild ch kind interp defsize =>
    obtain rfl := next_inj h
    refine ⟨_, rfl, forgetErrors_onOsc fun o => ?_⟩
    cases Waveform.ofKind kind <;> simp only [apply_ite State.forgetErrors] <;> rfl
  | oscPlay ch =>
    obtain rfl := next_inj h
    refine ⟨_, rfl, forgetErrors_onOsc fun o => ?_⟩
    simp only [apply_ite State.forgetErrors]
    rfl
  | oscRead ch sel =>
    obtain rfl := next_inj h
    refine ⟨_, rfl, forgetErrors_onOsc fun o => ?_⟩
    cases sel <;> simp only [apply_ite State.forgetErrors] <;> rfl
  | fltSetQ ch =>
    obtain rfl := next_inj h
    exact ⟨_, rfl, forgetErrors_onFlt fun x => rfl⟩
  | fltSetHpf ch =>
    obtain rfl := next_inj h
    exact ⟨_, rfl, forgetErrors_onFlt fun x => rfl⟩
  | fltSetFc ch =>
    obtain rfl := next_inj h
    exact ⟨_, rfl, forgetErrors_onFlt fun x => rfl⟩
  | fltReset ch =>
    obtain rfl := next_inj h
    refine ⟨_, rfl, forgetErrors_onFlt fun x => ?_⟩
    simp only [apply_ite State.forgetErrors]
    rfl
  | fltRun ch =>
    obtain rfl := next_inj h
    refine ⟨_, rfl, forgetErrors_onFlt fun x => ?_⟩
    simp only [apply_ite State.forgetErrors]
    rfl
  | fltRead ch sel =>
    obtain rfl := next_inj h
    exact ⟨_, rfl, forgetErrors_onFlt fun x => rfl⟩

end

/-- States that agree when the error registers are forgotten differ in them alone. -/
theorem withErrors_of_forgetErrors_eq {u t : State} (h : u.forgetErrors = t.forgetErrors) :
    u.withErrors t.status t.errinfo = t :=
  congrArg (·.withErrors t.status t.errinfo) h

end Sys2Proof.Machine
end

section
/-! PROOFS. The frame of the oscillator commands (spec/40_oscillator.md R136, R137, R141, R145). -/

namespace Sys2Proof.Machine

open Sys2Proof

/-- The four ways an oscillator command ends, as far as they bear on what it leaves unchanged. -/
inductive OscOutcome (i : Instr) (s : State) : State → Prop
  | raised (c : Cause) : OscOutcome i s (s.raiseError c)
  | read (v : BitVec 64) : OscOutcome i s (s.setResult v)
  | play (p : Binary64) (v : BitVec 64) (hi : i = .oscPlay i.ch) :
      OscOutcome i s ((s.setOsc i.ch.toNat { s.osc i.ch.toNat with phase := p }).setResult v)
  | build (o : OscChannel) (v : BitVec 64) (hi : ∃ kind interp defsize, i = .oscBuild i.ch kind interp defsize)
      (hunbuilt : (s.osc i.ch.toNat).built = false)
      (htable : ∀ j, o.n ≤ j → o.table.read j = (s.osc i.ch.toNat).table.read j) :
      OscOutcome i s ((s.setOsc i.ch.toNat o).setResult v)

theorem exec_oscOutcome {i : Instr} {s t : State} (hi : i.unit = .osc) (h : exec i s = .next t) : OscOutcome i s t := by
  cases i with
  | oscBuild ch kind interp defsize =>
    obtain ⟨-, rfl⟩ | rfl | ⟨w, -, hunbuilt, -, -, -, rfl⟩ := execOscBuild_cases h
    · exact .raised _
    · exact .raised _
    · exact .build _ _ ⟨_, _, _, rfl⟩ hunbuilt fun j hj =>
        (Memory.read_fill _ _ _ _).trans (if_neg (Nat.not_lt.mpr hj))
  | oscPlay ch =>
    obtain ⟨-, rfl⟩ | ⟨-, rfl⟩ | ⟨-, rfl⟩ | ⟨-, -, -, rfl⟩ := execOscPlay_cases h
    · exact .raised _
    · exact .raised _
    · exact .raised _
    · exact .play _ _ rfl
  | oscRead ch sel =>
    obtain ⟨_, rfl⟩ | ⟨_, rfl⟩ := execOscRead_cases h
    · exact .raised _
    · exact .read _
  | _ => cases hi

/-- A channel the block holds reads back as written. -/
theorem getElem?_set_of_some {α : Type} {l : List α} {c : Nat} {x y : α} (h : l[c]? = some x) : (l.set c y)[c]? = some y := by
  obtain ⟨hc, -⟩ := List.getElem?_eq_some_iff.mp h
  exact List.getElem?_set_self hc

namespace OscOutcome

variable {i : Instr} {s t : State} (h : OscOutcome i s t)
include h

/-- No channel comes or goes. -/
theorem oscs_length : t.oscs.length = s.oscs.length := by
  cases h with
  | raised => rfl
  | read => rfl
  | play => exact List.length_set
  | build => exact List.length_set

/-- STATUS and ERRINFO stay unless an error is raised, and then all but RESULT and them stays. -/
theorem errors : (t.status = s.status ∧ t.errinfo = s.errinfo) ∨ ∃ code, t = Machine.raised code s := by
  cases h with
  | raised c => exact .inr ⟨_, State.raiseError_eq s c⟩
  | read => exact .inl ⟨rfl, rfl⟩
  | play => exact .inl ⟨rfl, rfl⟩
  | build => exact .inl ⟨rfl, rfl⟩

/-- OSC_READ changes no channel. -/
theorem oscs_of_read (hread : ∃ sel, i = .oscRead i.ch sel) : t.oscs = s.oscs := by
  obtain ⟨sel, hread⟩ := hread
  cases h with
  | raised => rfl
  | read => rfl
  | play _ _ hi => cases hread.symm.trans hi
  | build _ _ hi =>
    obtain ⟨_, _, _, hi⟩ := hi
    cases hread.symm.trans hi

variable {o : OscChannel} (ho : s.oscs[i.ch.toNat]? = some o)
include ho

/-- OSC_PLAY changes PHASE alone. -/
theorem own_of_play (hplay : i = .oscPlay i.ch) : ∃ p, t.oscs[i.ch.toNat]? = some { o with phase := p } := by
  cases h with
  | raised => exact ⟨o.phase, ho⟩
  | read => exact ⟨o.phase, ho⟩
  | play p v =>
    rw [State.osc_eq ho]
    exact ⟨p, getElem?_set_of_some ho⟩
  | build _ _ hi =>
    obtain ⟨_, _, _, hi⟩ := hi
    cases hplay.symm.trans hi

/-- A built channel is changed by OSC_PLAY alone. -/
theorem own_of_built (hbuilt : o.built = true) (hplay : i ≠ .oscPlay i.ch) : t.oscs[i.ch.toNat]? = some o := by
  cases h with
  | raised => exact ho
  | read => exact ho
  | play _ _ hi => exact absurd hi hplay
  | build _ _ _ hunbuilt =>
    rw [State.osc_eq ho, hbuilt] at hunbuilt
    cases hunbuilt

/-- Table entries stay but those below the size that OSC_BUILD gives the channel. -/
theorem own_table {o' : OscChannel} (ho' : t.oscs[i.ch.toNat]? = some o') {j : Nat} (hj : o'.n ≤ j) :
    o'.table.read j = o.table.read j := by
  have same {x y : OscChannel} {l : List OscChannel} (hx : l[i.ch.toNat]? = some x) (hy : l[i.ch.toNat]? = some y) : x = y :=
    Option.some_injective _ (hx.symm.trans hy)
  cases h with
  | raised => rw [same ho' ho]
  | read => rw [same ho' ho]
  | play => rw [same ho' (getElem?_set_of_some ho), State.osc_eq ho]
  | build o₁ _ _ _ htable =>
    obtain rfl : o' = o₁ := same ho' (getElem?_set_of_some ho)
    rw [htable j hj, State.osc_eq ho]

end OscOutcome

end Sys2Proof.Machine
end

section
/-! PROOFS. The statements of spec/10_state.md, settled from the facts above. -/

namespace Sys2Proof.Proofs

open Sys2Proof Sys2Proof.Machine

/-- Settles O31, from the inversion of a step: each access, and each command, keeps every part of the invariant. -/
theorem everyStepKeepsTheInvariant : Obligations.EveryStepKeepsTheInvariant := by
  intro s t h ht
  exact step_inv h ht

/-- Settles O18: no register is addressed, so the read is refused. -/
theorem illegalReadsRecordABusError : Obligations.IllegalReadsRecordABusError := by
  intro s rest off size hoff hbad hp
  rw [step_read hoff hp, hostRead_of_none (regAt_eq_none hoff hbad), State.busError, State.recordError_eq]
  rfl

/-- Settles O19: no register is addressed, or one that the host only reads. -/
theorem illegalWritesRecordABusError : Obligations.IllegalWritesRecordABusError := by
  intro s rest off size v hoff hbad hp
  rw [step_write hoff hp, hostWrite_of_refused (regAt_refused hoff hbad), State.busError, State.recordError_eq]
  rfl

/-- Settles O21, bit by bit. -/
theorem statusWriteClearsTheBitsWrittenAsOne : Obligations.StatusWriteClearsTheBitsWrittenAsOne := by
  intro s rest v hp
  refine ⟨(s.begin rest).acknowledge v, step_write (by omega) hp, rfl, fun i hi => ?_⟩
  exact getLsbD_statusAfterClear v s.status hi

/-- Settles O22: the two arms of a SAMPLE_RATE write. -/
theorem sampleRateWritesAreValidated : Obligations.SampleRateWritesAreValidated := by
  intro s rest v hp
  have hstep : step s = .next (writeSampleRate v (s.begin rest)) := step_write (by omega) hp
  rw [hstep, writeSampleRate]
  refine ⟨fun hv => ?_, fun hv => ?_⟩
  · rw [if_pos hv]
    rfl
  · rw [if_neg hv, State.recordError_eq]
    rfl

/-- Settles O25: of everything an access can do, only a write that addresses CMD writes RESULT. -/
theorem onlyCommandsChangeResult : Obligations.OnlyCommandsChangeResult := by
  intro s t e rest hp hreset hcmd ht
  have notCmd {addr size off : Nat} {v : BitVec 64} (he : e = .write addr size v)
      (hoff : windowOffset s.params addr = some off) : regAt off size ≠ some .cmd := fun hr => by
    obtain ⟨rfl, hlt⟩ := windowOffset_eq_some.mp hoff
    obtain ⟨rfl, rfl⟩ := regAt_eq_cmd hlt hr
    exact hcmd v he
  obtain ⟨hnil, -⟩ | ⟨e', rest', hp', heff⟩ := step_effect ht
  · rw [hp] at hnil
    cases hnil
  · obtain ⟨rfl, rfl⟩ : e = e' ∧ rest = rest' := by simpa [hp] using hp'
    cases heff with
    | reset => exact absurd rfl hreset
    | command hoff hr => exact absurd hr (notCmd rfl hoff)
    | badCommand hoff hr => exact absurd hr (notCmd rfl hoff)
    | _ => rfl

/-- Settles O27: a command takes the same branch whatever the error registers hold. -/
theorem commandsIgnoreStatus : Obligations.CommandsIgnoreStatus := by
  intro i s t status errinfo h
  obtain ⟨u, hu, heq⟩ := exec_withErrors (status := status) (errinfo := errinfo) h
  exact ⟨u, hu, withErrors_of_forgetErrors_eq heq⟩

/-- Settles O47, from the four ways an oscillator command ends. -/
theorem frameOfTheOscillatorCommands : Obligations.FrameOfTheOscillatorCommands := by
  intro i s t hi h
  have houtcome := exec_oscOutcome hi h
  obtain ⟨hparams, hoperand, hcmd, hrate, hpending, hread⟩ := exec_unchanged h
  refine ⟨⟨hparams, hoperand, hcmd, hrate, exec_osc_flts hi h, hpending, hread⟩,
    ⟨houtcome.oscs_length, fun c hc => exec_osc_other hi h hc⟩, ?_, fun o ho => ⟨?_, ?_, ?_⟩, houtcome.errors⟩
  · exact houtcome.oscs_of_read
  · exact houtcome.own_of_play ho
  · exact houtcome.own_of_built ho
  · exact fun o' ho' j hj => houtcome.own_table ho ho' hj

/-- Settles O50: the three arms of the clamp. -/
theorem fltSetFcClampsTheSquare : Obligations.FltSetFcClampsTheSquare := by
  intro ch s x hx hch lo hi
  refine ⟨clampFc (s.operandF64.mul s.operandF64), ?_, (clampFc_between _).1, (clampFc_between _).2,
    fun hin => clampFc_of_between hin.1 hin.2, clampFc_of_gt,
    fun hlow => hlow.elim clampFc_of_lt clampFc_of_isNaN⟩
  simp only [exec, execFltSetFc, State.onFlt_of_lt hch, State.flt_eq hx]
  rfl

/-- Settles O12: the access is a write of the window that addresses CMD. -/
theorem stepRunsTheDecodedCommand : Obligations.StepRunsTheDecodedCommand := by
  intro s v rest i hp hdecode
  have hrun : step s = runCommand v (s.begin rest) := step_write (by omega) hp
  have hdecode : decode (s.begin rest).params v = .ok i := hdecode
  rw [hrun, runCommand, hdecode]
  rfl

/-- Settles O16: each offset addresses its register. -/
theorem legalReadsReturnTheRegister : Obligations.LegalReadsReturnTheRegister := by
  intro s rest off value hmem hp
  have hreg : off < 64 ∧ ∃ r, regAt off 8 = some r ∧ s.regValue r = value := by
    simp only [List.mem_cons, Prod.mk.injEq, List.not_mem_nil, or_false] at hmem
    rcases hmem with ⟨rfl, rfl⟩ | ⟨rfl, rfl⟩ | ⟨rfl, rfl⟩ | ⟨rfl, rfl⟩ | ⟨rfl, rfl⟩ | ⟨rfl, rfl⟩ | ⟨rfl, rfl⟩
    · exact ⟨by omega, .id, rfl, rfl⟩
    · exact ⟨by omega, .operand, rfl, rfl⟩
    · exact ⟨by omega, .cmd, rfl, rfl⟩
    · exact ⟨by omega, .result, rfl, rfl⟩
    · exact ⟨by omega, .status, rfl, rfl⟩
    · exact ⟨by omega, .errinfo, rfl, rfl⟩
    · exact ⟨by omega, .sampleRate, rfl, s.regValue_sampleRate⟩
  obtain ⟨hoff, r, hr, rfl⟩ := hreg
  rw [step_read hoff hp, hostRead_of_some hr]
  rfl

/-- Settles O17: each parameter fits its field. -/
theorem idReportsTheParameters : Obligations.IdReportsTheParameters := by
  intro p hp
  obtain ⟨⟨-, hosc⟩, ⟨-, hflt⟩, ⟨-, hmax⟩, -⟩ := hp
  exact idWord_fields hosc hflt (by omega)

/-- Settles O20: the write addresses OPERAND. -/
theorem operandWriteStoresTheValue : Obligations.OperandWriteStoresTheValue := by
  intro s rest v hp
  exact step_write (by omega) hp

/-- Settles O26, for every command writes RESULT as it ends. -/
theorem commandsOverwriteResult : Obligations.CommandsOverwriteResult := by
  intro i s r
  exact exec_setResult i s r

end Sys2Proof.Proofs
end

section
/-! PROOFS. Bit patterns of binary64 (spec/20_memory.md R62, spec/30_encoding.md R97): the sign, the exponent and the fraction as fields of
the pattern, and the datum that each choice of them is. -/

namespace Sys2Proof

open Sys2Proof.Machine

/-! ### The fields of a pattern -/

theorem ofBool_getLsbD {w : Nat} (v : BitVec w) (i : Nat) : BitVec.ofBool (v.getLsbD i) = v.extractLsb' i 1 := by
  refine BitVec.eq_of_getLsbD_eq fun j hj => ?_
  obtain rfl : j = 0 := by omega
  simp

/-- A pattern is its sign, its exponent and its fraction. -/
theorem pattern_eq_fields (v : BitVec 64) : BitVec.ofBool (v.getLsbD 63) ++ v.extractLsb' 52 11 ++ v.extractLsb' 0 52 = v := by
  have hhigh : 63 = 52 + 11 := rfl
  have hall : 52 = 0 + 52 := rfl
  rw [ofBool_getLsbD, BitVec.extractLsb'_append_extractLsb'_eq_extractLsb' hhigh,
    BitVec.extractLsb'_append_extractLsb'_eq_extractLsb' hall, BitVec.extractLsb'_eq_self]

section

variable (s : Bool) (e : BitVec 11) (f : BitVec 52)

theorem sign_of_fields : (BitVec.ofBool s ++ e ++ f).getLsbD 63 = s := by
  rw [BitVec.getLsbD_append, BitVec.getLsbD_append]
  cases s <;> rfl

theorem exponent_of_fields : (BitVec.ofBool s ++ e ++ f).extractLsb' 52 11 = e :=
  extract_above (by omega) BitVec.extractLsb'_append_eq_right

theorem fraction_of_fields : (BitVec.ofBool s ++ e ++ f).extractLsb' 0 52 = f :=
  BitVec.extractLsb'_append_eq_right

end

/-! ### The datum of the fields -/

namespace Binary64

/-- An exponent below 2047 makes a finite datum. -/
theorem ofBits_of_lt (s : Bool) {e : BitVec 11} (he : e.toNat < 2047) (f : BitVec 52) :
    ofBits (BitVec.ofBool s ++ e ++ f) = finite s ⟨e.toNat, he⟩ f := by
  simp only [ofBits, sign_of_fields, exponent_of_fields, fraction_of_fields, he, dite_true]

/-- The exponent 2047 with a zero fraction makes an infinity. -/
theorem ofBits_infinity (s : Bool) : ofBits (BitVec.ofBool s ++ 0x7FF#11 ++ 0#52) = infinite s := by
  cases s <;> rfl

/-- The exponent 2047 with any other fraction makes a NaN. -/
theorem ofBits_of_ne_zero (s : Bool) {f : BitVec 52} {q : Fin 4503599627370495} (hf : f.toNat = q.val + 1) :
    ofBits (BitVec.ofBool s ++ 0x7FF#11 ++ f) = nan s q := by
  have he : ¬(0x7FF#11).toNat < 2047 := by decide
  simp only [ofBits, sign_of_fields, exponent_of_fields, fraction_of_fields, hf, he, Nat.add_one_ne_zero, dite_false, if_false,
    Nat.add_sub_cancel]

theorem toNat_fraction_nan (q : Fin 4503599627370495) : (BitVec.ofNat 52 (q.val + 1)).toNat = q.val + 1 := by
  rw [BitVec.toNat_ofNat]
  omega

theorem toNat_exponent_finite (e : Fin 2047) : (BitVec.ofNat 11 e.val).toNat = e.val := by
  rw [BitVec.toNat_ofNat]
  omega

/-- Reading the pattern of a datum gives the datum. -/
theorem ofBits_toBits (x : Binary64) : ofBits x.toBits = x := by
  cases x with
  | finite s e f =>
    have he := toNat_exponent_finite e
    rw [toBits, ofBits_of_lt s (by omega)]
    congr
  | infinite s => exact ofBits_infinity s
  | nan s q => exact ofBits_of_ne_zero s (toNat_fraction_nan q)

/-- Every pattern is that of some datum. -/
theorem exists_toBits_eq (v : BitVec 64) : ∃ x : Binary64, x.toBits = v := by
  rw [← pattern_eq_fields v]
  generalize v.getLsbD 63 = s
  generalize v.extractLsb' 52 11 = e
  generalize v.extractLsb' 0 52 = f
  rcases Nat.lt_or_ge e.toNat 2047 with he | he
  · exact ⟨finite s ⟨e.toNat, he⟩ f, by rw [toBits, BitVec.ofNat_toNat, BitVec.setWidth_eq]⟩
  · obtain rfl : e = 0x7FF#11 := BitVec.eq_of_toNat_eq (by have := e.isLt; simp; omega)
    rcases Nat.eq_zero_or_pos f.toNat with hf | hf
    · obtain rfl : f = 0#52 := BitVec.eq_of_toNat_eq hf
      exact ⟨infinite s, rfl⟩
    · have hq : f.toNat - 1 < 4503599627370495 := by have := f.isLt; omega
      exact ⟨nan s ⟨f.toNat - 1, hq⟩, by rw [toBits, Nat.sub_add_cancel hf, BitVec.ofNat_toNat, BitVec.setWidth_eq]⟩

/-- Writing the datum of a pattern gives the pattern. -/
theorem toBits_ofBits (v : BitVec 64) : (ofBits v).toBits = v := by
  obtain ⟨x, rfl⟩ := exists_toBits_eq v
  rw [ofBits_toBits]

theorem getLsbD_toBits_sign (x : Binary64) : x.toBits.getLsbD 63 = x.sign := by
  cases x with
  | finite s e f => exact sign_of_fields s _ f
  | infinite s => exact sign_of_fields s _ _
  | nan s q => exact sign_of_fields s _ _

end Binary64

end Sys2Proof
end

section
/-! PROOFS. Bytes of the register window (spec/20_memory.md R62), and the addresses outside it (R72). -/

namespace Sys2Proof.Machine

open Sys2Proof

/-! ### Values and their bytes -/

theorem getLsbD_byteOf (v : BitVec 64) (k : Nat) {j : Nat} (hj : j < 8) : (byteOf v k).getLsbD j = v.getLsbD (8 * k + j) := by
  simp [byteOf, hj]

/-- Byte `k` of the value of some bytes is the `k`-th of them. -/
theorem byteOf_ofBytes {bytes : List (BitVec 8)} {k : Nat} (hk : k < bytes.length) (h8 : k < 8) :
    byteOf (ofBytes bytes) k = bytes[k] := by
  refine BitVec.eq_of_getLsbD_eq fun j hj => ?_
  rw [getLsbD_byteOf _ _ hj]
  induction bytes generalizing k with
  | nil => cases hk
  | cons b rest ih =>
    have hbit : 8 * k + j < 64 := by omega
    rw [ofBytes, BitVec.getLsbD_or, BitVec.getLsbD_shiftLeft]
    cases k with
    | zero => simpa [hj] using fun _ => hbit
    | succ k =>
      have hrest : 8 * (k + 1) + j - 8 = 8 * k + j := by omega
      have hpast : ¬8 * (k + 1) + j < 8 := by omega
      have hhigh : b.getLsbD (8 * (k + 1) + j) = false := b.getLsbD_of_ge _ (by omega)
      have ih := ih (Nat.lt_of_succ_lt_succ hk) (by omega)
      simpa [hrest, hhigh, hbit, hpast] using ih

/-- The bytes of the value of eight bytes are those bytes. -/
theorem map_byteOf_ofBytes {bytes : List (BitVec 8)} (h : bytes.length = 8) :
    (List.range 8).map (byteOf (ofBytes bytes)) = bytes := by
  refine List.ext_getElem (by simp [h]) fun k hk hk' => ?_
  rw [List.getElem_map, List.getElem_range, byteOf_ofBytes hk' (h ▸ hk')]

/-! ### Addresses of the window -/

/-- Registers stand at multiples of 8 in the window. -/
theorem regAt_eq_some {off size : Nat} {r : Reg} (h : regAt off size = some r) : off < 64 ∧ off % 8 = 0 := by
  unfold regAt at h
  split at h
  · split at h
    case h_8 => cases h
    all_goals exact ⟨by omega, rfl⟩
  · cases h

/-- Byte `k` of a register stands at the register's address plus `k`. -/
theorem windowByte_add (s : State) {r : Reg} {off k : Nat} (hr : regAt off 8 = some r) (hk : k < 8) :
    s.windowByte (s.params.base + off + k) = some (byteOf (s.regValue r) k) := by
  obtain ⟨hoff, hmod⟩ := regAt_eq_some hr
  have hwindow : windowOffset s.params (s.params.base + off + k) = some (off + k) := by
    rw [Nat.add_assoc]
    exact windowOffset_add s.params (by omega)
  have hreg : (off + k) / 8 * 8 = off := by omega
  have hbyte : (off + k) % 8 = k := by omega
  simp only [State.windowByte, hwindow, hreg, hr, hbyte]

theorem windowOffset_eq_none {p : Params} {addr : Nat} (h : addr < p.base ∨ p.base + 64 ≤ addr) : windowOffset p addr = none :=
  if_neg (by omega)

/-- A read or a write outside the window leaves the state it finds. -/
theorem perform_outside {s : State} {addr : Nat} (h : windowOffset s.params addr = none) (size : Nat) (v : BitVec 64) :
    perform (.read addr size) s = .next s ∧ perform (.write addr size v) s = .next s := by
  simp only [perform, h, and_self]

end Sys2Proof.Machine
end

section
/-! PROOFS. What an access or a command takes off the host's list (spec/20_memory.md R66), and what it leaves of a built oscillator channel
(R69, spec/40_oscillator.md R120, R137). -/

namespace Sys2Proof.Machine

open Sys2Proof

/-- Whatever an event does, the events after it are still to come. -/
theorem Effect.pending {s t : State} {e : BusEvent} (heff : Effect s e t) : t.pending = s.pending := by
  cases heff with
  | command _ _ _ hexec =>
    obtain ⟨-, -, -, -, hpending, -⟩ := exec_unchanged hexec
    exact hpending
  | _ => rfl

/-- A command changes at most PHASE of a built channel. -/
theorem exec_built {i : Instr} {s t : State} {c : Nat} {o : OscChannel} (h : exec i s = .next t) (ho : s.oscs[c]? = some o)
    (hbuilt : o.built = true) : ∃ p, t.oscs[c]? = some { o with phase := p } := by
  cases hi : i.unit with
  | flt => exact ⟨o.phase, by rw [exec_flt_oscs hi h]; exact ho⟩
  | osc =>
    by_cases hc : c = i.ch.toNat
    · subst hc
      have houtcome := exec_oscOutcome hi h
      by_cases hplay : i = .oscPlay i.ch
      · exact houtcome.own_of_play ho hplay
      · exact ⟨o.phase, houtcome.own_of_built ho hbuilt hplay⟩
    · exact ⟨o.phase, (exec_osc_other hi h hc).trans ho⟩

/-- An event other than reset changes at most PHASE of a built channel. -/
theorem Effect.built {s t : State} {e : BusEvent} {c : Nat} {o : OscChannel} (heff : Effect s e t) (hreset : e ≠ .reset)
    (ho : s.oscs[c]? = some o) (hbuilt : o.built = true) : ∃ p, t.oscs[c]? = some { o with phase := p } := by
  cases heff with
  | reset => exact absurd rfl hreset
  | command _ _ _ hexec => exact exec_built hexec ho hbuilt
  | _ => exact ⟨o.phase, ho⟩

end Sys2Proof.Machine
end

section
/-! PROOFS. The statements of spec/20_memory.md, settled from the facts above. -/

namespace Sys2Proof.Proofs

open Sys2Proof Sys2Proof.Machine

/-- Settles O4, from the fields of a pattern. -/
theorem bitPatternsAndDataCorrespond : Obligations.BitPatternsAndDataCorrespond := by
  refine ⟨Binary64.toBits_ofBits, Binary64.ofBits_toBits, Binary64.getLsbD_toBits_sign, fun s e f => ⟨?_, ?_⟩, fun s => ?_,
    fun x hx => ?_⟩
  · rw [Binary64.toBits, exponent_of_fields, Binary64.toNat_exponent_finite]
  · exact fraction_of_fields s _ f
  · cases s <;> rfl
  · obtain ⟨s, q, rfl⟩ := Binary64.isNaN_iff.mp hx
    refine ⟨exponent_of_fields s _ _, fun hzero => ?_⟩
    rw [Binary64.toBits, fraction_of_fields] at hzero
    have hq := Binary64.toNat_fraction_nan q
    simp [hzero] at hq

/-- Settles O14: the effect of the oldest event, which leaves the later ones on the host's list. -/
theorem everyStepAnswersANextState : Obligations.EveryStepAnswersANextState := by
  intro s
  cases hp : s.pending with
  | nil => exact ⟨s, step_nil hp, fun _ => rfl, hp⟩
  | cons e rest =>
    obtain ⟨t, ht, heff⟩ := perform_effect e (s.begin rest)
    exact ⟨t, (step_cons hp).trans ht, nofun, heff.pending⟩

/-- Settles O24: the bytes of a value are read back in their order, and an address of the window names one of them. -/
theorem theWindowIsLittleEndian : Obligations.TheWindowIsLittleEndian := by
  refine ⟨fun addr b0 b1 b2 b3 b4 b5 b6 b7 => ?_, fun s r off k hr hk => ?_⟩
  · exact ⟨_, rfl, map_byteOf_ofBytes rfl⟩
  · exact ⟨_, windowByte_add s hr hk, fun j hj => getLsbD_byteOf _ k hj⟩

/-- Settles O32: of the events, only a command can touch a channel, and OSC_BUILD refuses a built one. -/
theorem builtChannelIsFixedUntilReset : Obligations.BuiltChannelIsFixedUntilReset := by
  intro s t c o ho hbuilt hreset ht
  obtain ⟨-, rfl⟩ | ⟨e, rest, hp, heff⟩ := step_effect ht
  · exact ⟨o.phase, ho⟩
  · refine heff.built (fun he => hreset ?_) ho hbuilt
    rw [hp, he]
    rfl

/-- Settles O23: the address has no offset in the window. -/
theorem accessesOutsideTheWindowChangeNothing : Obligations.AccessesOutsideTheWindowChangeNothing := by
  intro s rest addr size v haddr hp
  have houtside : windowOffset (s.begin rest).params addr = none := windowOffset_eq_none haddr
  obtain ⟨hread, hwrite⟩ := perform_outside houtside size v
  rcases hp with hp | hp
  · exact (step_cons hp).trans hread
  · exact (step_cons hp).trans hwrite

end Sys2Proof.Proofs
end

section
/-! PROOFS. The decoder and the encoder of spec/30_encoding.md. Each layout of ARG (R93) is read back as it was written, so the
opcode map accepts exactly the fields of its commands; and what it rejects is said layout by layout, after R210. -/

namespace Sys2Proof

open Sys2Proof.Machine

/-! ### The fields of a CMD value -/

/-- A field of a field is a field of the whole. -/
theorem extractLsb'_extractLsb'_of_add_le {n : Nat} (x : BitVec n) {start len start' len' : Nat} (h : start' + len' ≤ len) :
    (x.extractLsb' start len).extractLsb' start' len' = x.extractLsb' (start + start') len' := by
  apply BitVec.eq_of_getLsbD_eq
  intro i hi
  simp [hi, show start' + i < len by omega, Nat.add_assoc]

theorem op_cmdValue_encode (i : Instr) : (cmdValue (encode i)).extractLsb' 24 8 = i.op :=
  (cmdValue_low _ 24 8 (by decide)).trans (op_of_fields _ _ _)

theorem ch_cmdValue_encode (i : Instr) : (cmdValue (encode i)).extractLsb' 16 8 = i.ch :=
  (cmdValue_low _ 16 8 (by decide)).trans (ch_of_fields _ _ _)

theorem arg_cmdValue_encode (i : Instr) : (cmdValue (encode i)).extractLsb' 0 16 = i.arg :=
  (cmdValue_low _ 0 16 (by decide)).trans (arg_of_fields _ _ _)

/-- A CMD value with a zero high half and the fields of a command is the command's own. -/
theorem eq_cmdValue_encode {v : BitVec 64} {i : Instr} (hhigh : v.extractLsb' 32 32 = 0#32) (hop : v.extractLsb' 24 8 = i.op)
    (hch : v.extractLsb' 16 8 = i.ch) (harg : v.extractLsb' 0 16 = i.arg) : v = cmdValue (encode i) := by
  rw [eq_cmdValue hhigh, word_eq_fields (v.extractLsb' 0 32)]
  simp only [extractLsb'_extractLsb'_of_add_le v, Nat.reduceAdd, Nat.reduceLeDiff, hop, hch, harg, encode]

/-! ### What each layout reads back -/

/-- The ARG of layout B has its reserved bits clear and holds the three fields of OSC_BUILD. -/
theorem fields_arg_oscBuild (ch : BitVec 8) (kind : BitVec 3) (interp defsize : Bool) :
    let arg := (Instr.oscBuild ch kind interp defsize).arg
    (arg.extractLsb' 3 5 = 0#5 ∧ arg.extractLsb' 10 6 = 0#6) ∧
      arg.extractLsb' 0 3 = kind ∧ arg.getLsbD 8 = interp ∧ arg.getLsbD 9 = defsize := by
  simp only [Instr.arg]
  revert kind interp defsize
  decide

theorem decodeBuild_arg (ch : BitVec 8) (kind : BitVec 3) (interp defsize : Bool) :
    decodeBuild ch (Instr.oscBuild ch kind interp defsize).arg = .ok (.oscBuild ch kind interp defsize) := by
  obtain ⟨hreserved, hkind, hinterp, hdefsize⟩ := fields_arg_oscBuild ch kind interp defsize
  rw [decodeBuild, if_pos hreserved, hkind, hinterp, hdefsize]

theorem decodeNoArg_zero (i : Instr) : decodeNoArg i 0#16 = .ok i := rfl

theorem decodeSelect_field {σ : Type} {sel : Nat → Option σ} (make : σ → Instr) {f : BitVec 4} {x : σ} (h : sel f.toNat = some x) :
    decodeSelect sel make (0#12 ++ f) = .ok (make x) := by
  have hfields : ∀ f : BitVec 4, (0#12 ++ f).extractLsb' 4 12 = 0#12 ∧ (0#12 ++ f).extractLsb' 0 4 = f := by decide
  obtain ⟨hreserved, hsel⟩ := hfields f
  rw [decodeSelect, if_pos hreserved, hsel, h]

/-- The opcode map gives a command back from its fields. -/
theorem decodeFields_op_ch_arg (i : Instr) : decodeFields i.op i.ch i.arg = .ok i := by
  cases i with
  | oscBuild ch kind interp defsize => exact decodeBuild_arg ch kind interp defsize
  | oscRead ch sel => exact decodeSelect_field _ sel.ofSel_field
  | fltRead ch sel => exact decodeSelect_field _ sel.ofSel_field
  | _ => exact decodeNoArg_zero _

/-- The opcode map accepts the fields of its commands and no others. -/
theorem decodeFields_eq_ok_iff {op ch : BitVec 8} {arg : BitVec 16} {i : Instr} :
    decodeFields op ch arg = .ok i ↔ op = i.op ∧ ch = i.ch ∧ arg = i.arg := by
  refine ⟨fun h => ?_, fun ⟨hop, hch, harg⟩ => by rw [hop, hch, harg, decodeFields_op_ch_arg]⟩
  unfold decodeFields at h
  split at h
  case h_1 hop =>
    obtain ⟨kind, interp, defsize, rfl, harg⟩ := decodeBuild_eq_ok h
    exact ⟨BitVec.eq_of_toNat_eq hop, rfl, harg.symm⟩
  case h_3 hop =>
    obtain ⟨x, hx, rfl, harg⟩ := decodeSelect_eq_ok h
    exact ⟨BitVec.eq_of_toNat_eq hop, rfl, by rw [Instr.arg, OscSel.field_of_ofSel hx, harg]⟩
  case h_9 hop =>
    obtain ⟨x, hx, rfl, harg⟩ := decodeSelect_eq_ok h
    exact ⟨BitVec.eq_of_toNat_eq hop, rfl, by rw [Instr.arg, FltSel.field_of_ofSel hx, harg]⟩
  case h_10 => nomatch h
  all_goals
    next hop =>
      obtain ⟨rfl, harg⟩ := decodeNoArg_eq_ok h
      exact ⟨BitVec.eq_of_toNat_eq hop, rfl, harg⟩

/-- The decoder accepts the CMD values of the well-formed commands and no others. -/
theorem decode_eq_ok_iff {p : Params} {v : BitVec 64} {i : Instr} :
    decode p v = .ok i ↔ v = cmdValue (encode i) ∧ i.wellFormed p := by
  constructor
  · intro h
    obtain ⟨hhigh, hfields, hwf⟩ := decode_eq_ok h
    obtain ⟨hop, hch, harg⟩ := decodeFields_eq_ok_iff.mp hfields
    exact ⟨eq_cmdValue_encode hhigh hop hch harg, hwf⟩
  · rintro ⟨rfl, hwf⟩
    simp only [decode, cmdValue_high, op_cmdValue_encode, ch_cmdValue_encode, arg_cmdValue_encode, decodeFields_op_ch_arg,
      if_true, hwf]

/-! ### What is rejected -/

theorem decodeBuild_rejects_iff {ch : BitVec 8} {arg : BitVec 16} :
    (∃ e, decodeBuild ch arg = .error e) ↔ arg.extractLsb' 3 5 ≠ 0#5 ∨ arg.extractLsb' 10 6 ≠ 0#6 := by
  unfold decodeBuild
  split
  next hreserved => simp [hreserved]
  next hreserved => simpa [imp_iff_not_or] using hreserved

theorem decodeNoArg_rejects_iff {i : Instr} {arg : BitVec 16} : (∃ e, decodeNoArg i arg = .error e) ↔ arg ≠ 0#16 := by
  unfold decodeNoArg
  split <;> simp [*]

theorem decodeSelect_rejects_iff {σ : Type} {sel : Nat → Option σ} {make : σ → Instr} {arg : BitVec 16} :
    (∃ e, decodeSelect sel make arg = .error e) ↔ arg.extractLsb' 4 12 ≠ 0#12 ∨ sel (arg.extractLsb' 0 4).toNat = none := by
  unfold decodeSelect
  split
  next hreserved => cases sel (arg.extractLsb' 0 4).toNat <;> simp [hreserved]
  next hreserved => simp [hreserved]

theorem OscSel.ofSel_eq_none_iff : ∀ f : BitVec 4, OscSel.ofSel f.toNat = none ↔ 4 < f.toNat := by decide

theorem FltSel.ofSel_eq_none_iff : ∀ f : BitVec 4, FltSel.ofSel f.toNat = none ↔ 9 < f.toNat := by decide

/-- R210's conditions on OP and ARG: an unassigned OP, a reserved ARG bit or a SEL out of range. -/
def IllegalFields (op : BitVec 8) (arg : BitVec 16) : Prop :=
  ¬(op.toNat = 0x01 ∨ op.toNat = 0x02 ∨ op.toNat = 0x03 ∨ (0x11 ≤ op.toNat ∧ op.toNat ≤ 0x16)) ∨
  (op.toNat = 0x01 ∧ (arg.extractLsb' 3 5 ≠ 0#5 ∨ arg.extractLsb' 10 6 ≠ 0#6)) ∨
  ((op.toNat = 0x02 ∨ (0x11 ≤ op.toNat ∧ op.toNat ≤ 0x15)) ∧ arg ≠ 0#16) ∨
  (op.toNat = 0x03 ∧ (arg.extractLsb' 4 12 ≠ 0#12 ∨ 4 < (arg.extractLsb' 0 4).toNat)) ∨
  (op.toNat = 0x16 ∧ (arg.extractLsb' 4 12 ≠ 0#12 ∨ 9 < (arg.extractLsb' 0 4).toNat))

/-- R210's condition on CH: out of range for the kind of channel OP acts on. -/
def IllegalChannel (p : Params) (op ch : BitVec 8) : Prop :=
  ((op.toNat = 0x01 ∨ op.toNat = 0x02 ∨ op.toNat = 0x03) ∧ p.numOsc ≤ ch.toNat) ∨
  ((0x11 ≤ op.toNat ∧ op.toNat ≤ 0x16) ∧ p.numFlt ≤ ch.toNat)

/-- R210's conditions, field by field. -/
theorem illegalCommandValue_iff {p : Params} {v : BitVec 64} :
    IllegalCommandValue p v ↔
      v.extractLsb' 32 32 ≠ 0#32 ∨ IllegalFields (v.extractLsb' 24 8) (v.extractLsb' 0 16) ∨
        IllegalChannel p (v.extractLsb' 24 8) (v.extractLsb' 16 8) := by
  simp only [IllegalCommandValue, IllegalFields, IllegalChannel, extractLsb'_extractLsb'_of_add_le v, Nat.reduceAdd,
    Nat.reduceLeDiff, or_assoc]

theorem decodeFields_rejects_iff {op ch : BitVec 8} {arg : BitVec 16} :
    (∃ e, decodeFields op ch arg = .error e) ↔ IllegalFields op arg := by
  unfold decodeFields IllegalFields
  split
  case h_1 hop => simp [hop, decodeBuild_rejects_iff]
  case h_3 hop => rw [decodeSelect_rejects_iff, OscSel.ofSel_eq_none_iff]; simp [hop]
  case h_9 hop => rw [decodeSelect_rejects_iff, FltSel.ofSel_eq_none_iff]; simp [hop]
  case h_10 =>
    simp only [imp_false] at *
    exact iff_of_true ⟨_, rfl⟩ (.inl (by omega))
  all_goals next hop => simp [hop, decodeNoArg_rejects_iff]

theorem Instr.not_wellFormed_iff {p : Params} {i : Instr} : ¬i.wellFormed p ↔ IllegalChannel p i.op i.ch := by
  cases i <;> simp [Instr.op, Instr.ch, Instr.unit, ChannelKind.count, IllegalChannel]

/-- A CMD value is rejected for its high half, by the opcode map, or for the channel of the command it would be. -/
theorem decode_rejects_iff {p : Params} {v : BitVec 64} :
    (∃ e, decode p v = .error e) ↔
      v.extractLsb' 32 32 ≠ 0#32 ∨ IllegalFields (v.extractLsb' 24 8) (v.extractLsb' 0 16) ∨
        IllegalChannel p (v.extractLsb' 24 8) (v.extractLsb' 16 8) := by
  rw [← decodeFields_rejects_iff (ch := v.extractLsb' 16 8)]
  unfold decode
  split
  case isFalse hhigh => exact iff_of_true ⟨_, rfl⟩ (.inl hhigh)
  case isTrue hhigh =>
    cases hfields : decodeFields (v.extractLsb' 24 8) (v.extractLsb' 16 8) (v.extractLsb' 0 16) with
    | error e => exact iff_of_true ⟨_, rfl⟩ (.inr (.inl ⟨_, rfl⟩))
    | ok i =>
      obtain ⟨hop, hch, -⟩ := decodeFields_eq_ok_iff.mp hfields
      rw [hop, hch, ← Instr.not_wellFormed_iff]
      by_cases hwf : i.wellFormed p
      · simp [hhigh, hwf]
      · exact iff_of_true ⟨_, if_neg hwf⟩ (.inr (.inr hwf))

end Sys2Proof
end

section
/-! PROOFS. The statements of spec/30_encoding.md, settled from the facts above. -/

namespace Sys2Proof.Proofs

open Sys2Proof Sys2Proof.Machine

/-- Settles O8: the fields of a command's CMD value are the command's own, and the opcode map gives it back from them. -/
theorem decodeInvertsEncode : Obligations.DecodeInvertsEncode :=
  fun _ _ hwf => decode_eq_ok_iff.mpr ⟨rfl, hwf⟩

/-- Settles O9: the opcode map accepts only the fields of the command it gives, and these are the whole CMD value. -/
theorem decodeAcceptsOnlyEncodings : Obligations.DecodeAcceptsOnlyEncodings :=
  fun _ _ _ h => decode_eq_ok_iff.mp h

/-- Settles O11: the decoder's rejections and R210's conditions are the same, field by field. -/
theorem rejectedCommandValues : Obligations.RejectedCommandValues :=
  fun _ _ => decode_rejects_iff.trans illegalCommandValue_iff.symm

/-- Settles O10: ten closed words, each decoded by evaluation. -/
theorem wordsOfTheOpcodeMapDecode : Obligations.WordsOfTheOpcodeMapDecode := by
  unfold Obligations.WordsOfTheOpcodeMapDecode
  decide

end Sys2Proof.Proofs
end

section
/-! PROOFS. The branches of the oscillator commands (spec/40_oscillator.md R137, R141, R145), each on a channel that the block
holds. -/

namespace Sys2Proof.Machine

open Sys2Proof

/-! ### What the branches turn on -/

/-- KIND as a channel holds it is the KIND field of the command that built it (R31, R95). -/
theorem Waveform.ofKind_bits (w : Waveform) : Waveform.ofKind w.bits = some w := by
  cases w <;> rfl

theorem Waveform.ofKind_eq_none {kind : BitVec 3} (h : 4 < kind.toNat) : Waveform.ofKind kind = none := by
  revert kind
  decide

theorem OscChannel.accepts_iff {o : OscChannel} {p : Binary64} :
    o.accepts p = true ↔ p.ge .zero = true ∧ p.lt (.ofInt o.n) = true := by
  rw [OscChannel.accepts, Bool.and_eq_true]

/-- The CONFIG word's fields side by side are the fields shifted to their places (R145). -/
theorem OscChannel.config_eq (o : OscChannel) :
    o.config = ((BitVec.ofBool o.built).setWidth 64 <<< 16) ||| ((BitVec.ofBool o.interp).setWidth 64 <<< 8) |||
      o.kind.bits.setWidth 64 := by
  rw [OscChannel.config]
  generalize o.built = built
  generalize o.interp = interp
  cases o.kind <;> revert built interp <;> decide

/-! ### The commands on a channel that the block holds -/

section

variable {ch : BitVec 8} {s : State} {o : OscChannel} (ho : s.oscs[ch.toNat]? = some o)
include ho

theorem State.tableRead_eq {i : Nat} {w : Binary32} (h : o.table.read i = some w) : s.tableRead ch.toNat i = w :=
  State.tableRead_of_some (by rw [State.osc_eq ho, h])

/-- Without interpolation the sample is the widened entry at the integer part of the phase (R142). -/
theorem playSample_truncates {p : Binary64} {w : Binary32} (hinterp : o.interp = false)
    (hcurr : o.table.read (phaseIndex p) = some w) : playSample s ch.toNat o p = w.from32 := by
  simp [playSample, hinterp, State.tableRead_eq ho hcurr]

/-- With interpolation it is R143's formula of that entry and the next, which past the last entry is entry 0. -/
theorem playSample_interpolates {p : Binary64} {w w' : Binary32} (hinterp : o.interp = true) (hlt : phaseIndex p < o.n)
    (hcurr : o.table.read (phaseIndex p) = some w)
    (hnext : o.table.read (if phaseIndex p + 1 = o.n then 0 else phaseIndex p + 1) = some w') :
    playSample s ch.toNat o p = w.from32.add ((w'.from32.sub w.from32).mul (p.sub (.ofInt (phaseIndex p)))) := by
  have hwrap : (phaseIndex p + 1) % o.n = if phaseIndex p + 1 = o.n then 0 else phaseIndex p + 1 := by
    split
    · next hlast => rw [hlast, Nat.mod_self]
    · exact Nat.mod_eq_of_lt (by omega)
  simp [playSample, interpolate, hinterp, hwrap, State.tableRead_eq ho hcurr, State.tableRead_eq ho hnext]

variable (hch : ch.toNat < s.params.numOsc)
include hch

theorem State.onOsc_of_some (act : State → Nat → OscChannel → State) : s.onOsc ch act = act s ch.toNat o := by
  rw [State.onOsc_of_lt hch, State.osc_eq ho]

/-- The three refusals of OSC_BUILD. -/
theorem exec_oscBuild_refused {kind : BitVec 3} {interp defsize : Bool}
    (h : o.built = true ∨ Waveform.ofKind kind = none ∨ s.buildSize defsize = 0 ∨ s.params.maxN < s.buildSize defsize) :
    exec (.oscBuild ch kind interp defsize) s = .next (s.raiseError .cfg) := by
  simp only [exec, execOscBuild, State.onOsc_of_some ho hch]
  split
  · rfl
  · next hbuilt =>
    split
    · rfl
    · next w hkind =>
      have hsize : s.buildSize defsize = 0 ∨ s.params.maxN < s.buildSize defsize := by simpa [hbuilt, hkind] using h
      rw [if_pos hsize]

theorem exec_oscBuild_builds {kind : BitVec 3} {w : Waveform} {interp defsize : Bool} (hbuilt : o.built = false)
    (hkind : Waveform.ofKind kind = some w) (hpos : 1 ≤ s.buildSize defsize) (hmax : s.buildSize defsize ≤ s.params.maxN) :
    exec (.oscBuild ch kind interp defsize) s =
      .next ((s.setOsc ch.toNat (o.build w interp (s.buildSize defsize) s.rate)).finish) := by
  have hsize : ¬(s.buildSize defsize = 0 ∨ s.params.maxN < s.buildSize defsize) := by omega
  simp [exec, execOscBuild, State.onOsc_of_some ho hch, hbuilt, hkind, hsize]

theorem exec_oscPlay_unbuilt (hbuilt : o.built = false) : exec (.oscPlay ch) s = .next (s.raiseError .unbuilt) := by
  simp [exec, execOscPlay, State.onOsc_of_some ho hch, hbuilt]

theorem exec_oscPlay_rejected (hbuilt : o.built = true) (hout : ¬o.accepts (o.advance s.operandF64) = true) :
    exec (.oscPlay ch) s = .next (s.raiseError .range) := by
  simp [exec, execOscPlay, State.onOsc_of_some ho hch, hbuilt, hout]

theorem exec_oscPlay_accepted (hbuilt : o.built = true) (hin : o.accepts (o.advance s.operandF64) = true) :
    exec (.oscPlay ch) s = .next ((s.setOsc ch.toNat { o with phase := o.advance s.operandF64 }).finishF64
      (playSample s ch.toNat o (o.advance s.operandF64))) := by
  simp [exec, execOscPlay, State.onOsc_of_some ho hch, hbuilt, hin]

theorem exec_oscRead_config : exec (.oscRead ch .config) s = .next (s.setResult o.config) := by
  simp only [exec, execOscRead, State.onOsc_of_some ho hch]

theorem exec_oscRead_unbuilt {sel : OscSel} (hsel : sel ≠ .config) (hbuilt : o.built = false) :
    exec (.oscRead ch sel) s = .next (s.raiseError .unbuilt) := by
  cases sel with
  | config => exact absurd rfl hsel
  | _ => simp [exec, execOscRead, State.onOsc_of_some ho hch, hbuilt]

/-- The elements other than CONFIG and the table, on a built channel. -/
theorem exec_oscRead_element (hbuilt : o.built = true) :
    exec (.oscRead ch .phase) s = .next (s.finishF64 o.phase) ∧ exec (.oscRead ch .n) s = .next (s.finishNat o.n) ∧
      exec (.oscRead ch .coeff) s = .next (s.finishF64 o.coeff) := by
  simp [exec, execOscRead, State.onOsc_of_some ho hch, hbuilt]

/-- A table entry of a built channel, at an index inside the table and past it. -/
theorem exec_oscRead_table (hbuilt : o.built = true) :
    exec (.oscRead ch .table) s = .next (if s.operandNat < o.n then s.finishF64 (s.tableRead ch.toNat s.operandNat).from32
      else s.raiseError .range) := by
  simp [exec, execOscRead, State.onOsc_of_some ho hch, hbuilt]

end

end Sys2Proof.Machine
end

section
/-! PROOFS. Numbers that the oscillator turns on (spec/40_oscillator.md): the exact quotients in the table formulas (R130 to R134), the
integer part and the fraction of an accepted phase (R141, R143), and phases that cannot be accepted. -/

namespace Sys2Proof

open Sys2Proof.Machine

/-! ### Quotients of indexes by table sizes -/

/-- The quotient `i / n` that some code stands for is computed exactly. -/
theorem ofInt_div_ofInt {i n c : Nat} (hi : i ≤ 2 ^ 53) (hn : 1 ≤ n) (hn' : n ≤ 2 ^ 53) (hc : n * codeValue 52 c = unit64 * i) :
    (Binary64.ofInt i).div (.ofInt n) = .ofCode false c := by
  obtain ⟨ei, fi, hfi, hmi⟩ := Binary64.ofInt_natCast hi
  obtain ⟨en, fn, hfn, hmn⟩ := Binary64.ofInt_natCast hn'
  have hden : 0 < mag64 en fn := hmn ▸ Nat.mul_pos unit64_pos hn
  have hquot : unit64 * mag64 ei fi = mag64 en fn * codeValue 52 c := by rw [hmi, hmn, Nat.mul_assoc, hc]
  rw [hfi, hfn, Binary64.div_finite _ _ _ _ _ _ hden.ne', hquot, Binary64.round, roundCode_exact (by omega) hden]
  rfl

theorem ofInt_zero_div_ofInt {n : Nat} (hn : 1 ≤ n) (hn' : n ≤ 2 ^ 53) : (Binary64.ofInt (0 : Nat)).div (.ofInt n) = .zero := by
  rw [ofInt_div_ofInt (c := 0) (by omega) hn hn' (by simp)]
  decide

/-- Half of an even size by the size is 0.5. -/
theorem ofInt_div_ofInt_double {m : Nat} (hm : 1 ≤ m) (hm' : 2 * m ≤ 2 ^ 53) :
    (Binary64.ofInt m).div (.ofInt (2 * m : Nat)) = .half := by
  have hhalf : 2 * codeValue 52 (2 ^ 52 * 1022) = unit64 := by decide +kernel
  rw [ofInt_div_ofInt (c := 2 ^ 52 * 1022) (by omega) (by omega) hm' (by rw [← hhalf]; ring)]
  decide +kernel

/-! ### The constants of the formulas -/

theorem twoPi_eq : Binary64.twoPi = .ofBits 0x401921FB54442D18#64 := by decide +kernel

theorem ofInt_one : Binary64.ofInt 1 = .one := by decide +kernel

theorem ofInt_two : Binary64.ofInt 2 = .two := by decide +kernel

theorem ofInt_four : Binary64.ofInt 4 = .four := by decide +kernel

/-! ### Entries -/

namespace Machine

theorem sawEntry_half {m : Nat} (hm : 1 ≤ m) (hm' : 2 * m ≤ 2 ^ 53) : sawEntry m (2 * m) = .negOne := by
  rw [sawEntry, ofInt_div_ofInt_double hm hm']
  decide +kernel

theorem sawEntry_zero {n : Nat} (hn : 1 ≤ n) (hn' : n ≤ 2 ^ 53) : sawEntry 0 n = .finite false 0 0#23 := by
  rw [sawEntry, ofInt_zero_div_ofInt hn hn']
  decide +kernel

theorem triangleEntry_zero {n : Nat} (hn : 1 ≤ n) (hn' : n ≤ 2 ^ 53) : triangleEntry 0 n = .finite false 0 0#23 := by
  rw [triangleEntry, ofInt_zero_div_ofInt hn hn']
  decide +kernel

theorem squareEntry_of_lt {i n : Nat} (h : 2 * i < n) : squareEntry i n = .one := if_pos h

theorem squareEntry_of_le {i n : Nat} (h : n ≤ 2 * i) : squareEntry i n = .negOne := if_neg (Nat.not_lt.mpr h)

end Machine

/-! ### The integer part and the fraction of a phase -/

/-- The part of a finite magnitude below a power of two is a magnitude: it needs no more significand bits. -/
theorem exists_codeValue_eq_mod_two_pow (p c u : Nat) : ∃ c', codeValue p c' = codeValue p c % 2 ^ u := by
  obtain ⟨k, m, -, hm, -, hvalue⟩ := code_scaled p c
  rw [hvalue]
  rcases Nat.le_total k u with hku | huk
  · obtain ⟨j, rfl⟩ := Nat.exists_eq_add_of_le hku
    obtain ⟨c', hc'⟩ := exists_codeValue_eq (p := p) ((Nat.mod_le m (2 ^ j)).trans hm.le) k
    exact ⟨c', by rw [hc', Nat.add_comm k j, Nat.pow_add, Nat.mul_mod_mul_right]⟩
  · obtain ⟨j, rfl⟩ := Nat.exists_eq_add_of_le huk
    refine ⟨0, ?_⟩
    rw [codeValue_zero, Nat.pow_add, Nat.mul_left_comm, Nat.mul_mod_right]

namespace Binary64

/-- No datum is past infinity. -/
theorem place_le_infinity64 {x : Binary64} {v : Int} (h : x.place = some v) : v ≤ infinity64 := by
  cases x with
  | finite s e f =>
    obtain rfl : signed s (mag64 e f) = v := by simpa using h
    exact (signed_mag64_between s e f).2.le
  | infinite s =>
    have hpos := infinity64_pos
    obtain rfl : (if s then -infinity64 else infinity64) = v := by simpa [place_infinite] using h
    split <;> omega
  | nan => cases h

/-- What is not below zero and is below some datum is finite. -/
theorem isFinite_of_zero_le_of_lt {x b : Binary64} (hzero : zero.le x = true) (hlt : x.lt b = true) : x.isFinite = true := by
  obtain ⟨v, w, hx, hb, hvw⟩ := lt_iff.mp hlt
  cases x with
  | finite s e f => rfl
  | infinite s =>
    rw [zero_le_infinite] at hzero
    obtain rfl : s = false := by simpa using hzero
    obtain rfl : infinity64 = v := by simpa [place_infinite] using hx
    exact absurd (place_le_infinity64 hb) (not_le.mpr hvw)
  | nan => cases hx

theorem floorInt_of_nonneg {s : Bool} {e : Fin 2047} {f : BitVec 52} (hpos : signed s (mag64 e f) = mag64 e f) :
    (finite s e f).floorInt = (mag64 e f / unit64 : Nat) := by
  rw [floorInt, hpos, Int.natCast_ediv]

/-- An exact difference that is a magnitude is computed exactly. -/
theorem place_sub_exact {sa sb : Bool} {ea eb : Fin 2047} {fa fb : BitVec 52} {c : Nat}
    (hc : codeValue 52 c = (signed sa (mag64 ea fa) - signed sb (mag64 eb fb)).natAbs)
    (hlt : ((signed sa (mag64 ea fa) - signed sb (mag64 eb fb)).natAbs : Int) < infinity64) :
    ((finite sa ea fa).sub (finite sb eb fb)).place = some (signed sa (mag64 ea fa) - signed sb (mag64 eb fb)) := by
  rw [sub_finite]
  generalize signed sa (mag64 ea fa) - signed sb (mag64 eb fb) = x at hc hlt ⊢
  obtain ⟨e, f, hround, hmag⟩ := round_of_codeValue_eq hc hlt (sumSign sa (!sb) x)
  rw [hround, place_finite, hmag, signed_sumSign]

/-- A phase less its integer part is what lies below the unit, where `ofInt` of the integer part is exact. -/
theorem place_sub_floor {s : Bool} {e : Fin 2047} {f : BitVec 52} (hpos : signed s (mag64 e f) = mag64 e f)
    (hfloor : mag64 e f / unit64 ≤ 2 ^ 53) :
    ((finite s e f).sub (ofInt (mag64 e f / unit64 : Nat))).place = some ((mag64 e f % unit64 : Nat) : Int) := by
  obtain ⟨e', f', hfinite, hmag⟩ := ofInt_natCast hfloor
  have hdiff : signed s (mag64 e f) - signed false (mag64 e' f') = (mag64 e f % unit64 : Nat) := by
    have := Nat.div_add_mod (mag64 e f) unit64
    rw [hpos, hmag, signed, if_neg Bool.false_ne_true]
    omega
  obtain ⟨u, hu⟩ := unit64_eq_two_pow
  obtain ⟨c, hc⟩ := exists_codeValue_eq_mod_two_pow 52 (2 ^ 52 * e.val + f.toNat) u
  have hbound : ((mag64 e f % unit64 : Nat) : Int) < infinity64 :=
    lt_of_le_of_lt (by exact_mod_cast Nat.mod_le _ _) (mag64_lt e f)
  rw [hfinite, ← hdiff]
  refine place_sub_exact (c := c) ?_ ?_
  · rw [hdiff, Int.natAbs_natCast, hc, hu, mag64]
  · rwa [hdiff, Int.natAbs_natCast]

/-- The fields of a phase that is not below zero and is below `f64(n)`: `-0.0` is one (R140). -/
theorem phase_fields {p : Binary64} {n : Nat} (hn : n ≤ 2 ^ 53) (hzero : p.ge zero = true) (hlt : p.lt (ofInt n) = true) :
    ∃ s e f, p = finite s e f ∧ signed s (mag64 e f) = mag64 e f ∧ mag64 e f < unit64 * n := by
  obtain ⟨s, e, f, rfl⟩ := isFinite_iff.mp (isFinite_of_zero_le_of_lt hzero hlt)
  obtain ⟨en, fn, hfn, hmn⟩ := ofInt_natCast hn
  have hge : 0 ≤ signed s (mag64 e f) := by
    rw [ge, (compare_of_place place_zero (place_finite s e f)).2.1] at hzero
    exact of_decide_eq_true hzero
  have hpos : signed s (mag64 e f) = mag64 e f := by
    rw [← abs_of_nonneg hge, Int.abs_eq_natAbs, natAbs_signed]
  rw [hfn, (compare_of_place (place_finite s e f) (place_finite false en fn)).1, hpos, decide_eq_true_iff, hmn] at hlt
  exact ⟨s, e, f, rfl, hpos, Int.ofNat_lt.mp hlt⟩

/-! ### Zero terms and factors -/

theorem mag64_zero : mag64 0 0#52 = 0 := by decide

/-- A datum with a clear sign plus a zero of either sign is the datum. -/
theorem add_zero_finite (e : Fin 2047) (f : BitVec 52) (t : Bool) : (finite false e f).add (finite t 0 0#52) = finite false e f := by
  have hsign : sumSign false t (mag64 e f) = false := by simp [sumSign]
  have hcode : roundCode 52 (mag64 e f) 1 = 2 ^ 52 * e.val + f.toNat := by
    rw [mag64, ← Nat.one_mul (codeValue _ _), roundCode_exact (by omega) Nat.one_pos]
  rw [add_finite, mag64_zero, signed_zero, add_zero, signed, if_neg Bool.false_ne_true, hsign, Int.natAbs_natCast,
    round, hcode, ofCode_fields]

/-- A zero of either sign times a finite datum is a zero. -/
theorem zero_mul_finite (t : Bool) {x : Binary64} (hx : x.isFinite = true) : ∃ t', (finite t 0 0#52).mul x = finite t' 0 0#52 := by
  obtain ⟨s, e, f, rfl⟩ := isFinite_iff.mp hx
  refine ⟨t != s, ?_⟩
  rw [mul_finite, mag64_zero, Nat.zero_mul, round, roundCode_zero]
  rfl

end Binary64

namespace Machine

variable {o : OscChannel} {freq : Binary64}

/-- Only a finite frequency gives a phase that is accepted (R141). -/
theorem isFinite_of_accepts (h : o.accepts (o.advance freq) = true) : freq.isFinite = true := by
  obtain ⟨hzero, hlt⟩ := OscChannel.accepts_iff.mp h
  have hadvance := Binary64.isFinite_of_zero_le_of_lt hzero hlt
  have hsum : (o.phase.add (freq.mul o.coeff)).isFinite = true := by
    rw [OscChannel.advance, wrapOnce] at hadvance
    split at hadvance
    · exact (Binary64.sub_isFinite hadvance).1
    · exact hadvance
  obtain ⟨-, hprod⟩ := Binary64.add_isFinite hsum
  exact (Binary64.mul_isFinite hprod).1

namespace OscChannel.sound

variable {p : Params} (h : o.sound p) (hbuilt : o.built = true)
include h hbuilt

/-- The phase of a built channel passes the test of R140. -/
theorem accepts_phase : o.accepts o.phase = true := by
  obtain ⟨-, -, hparts⟩ := h
  obtain ⟨-, hzero, hlt, -⟩ := hparts hbuilt
  exact accepts_iff.mpr ⟨hzero, hlt⟩

/-- A zero frequency leaves the phase of a built channel where it is (R144). -/
theorem advance_zero (t : Bool) : o.advance (.finite t 0 0#52) = o.phase := by
  obtain ⟨hzero, hlt⟩ := accepts_iff.mp (accepts_phase h hbuilt)
  obtain ⟨-, -, hparts⟩ := h
  obtain ⟨-, -, -, hsign, hcoeff, -⟩ := hparts hbuilt
  obtain ⟨s, e, f, hphase⟩ := Binary64.isFinite_iff.mp (Binary64.isFinite_of_zero_le_of_lt hzero hlt)
  obtain rfl : s = false := by rwa [hphase] at hsign
  obtain ⟨t', hprod⟩ := Binary64.zero_mul_finite t hcoeff
  have hsum : o.phase.add ((Binary64.finite t 0 0#52).mul o.coeff) = o.phase := by
    rw [hprod, hphase, Binary64.add_zero_finite]
  have hge : o.phase.ge (.ofInt o.n) = false := Binary64.le_eq_false_of_lt hlt
  rw [OscChannel.advance, hsum, wrapOnce, hge, if_neg Bool.false_ne_true]

end OscChannel.sound

end Machine

end Sys2Proof
end

section
/-! PROOFS. The statements of spec/40_oscillator.md, settled from the facts above. -/

namespace Sys2Proof.Proofs

open Sys2Proof Sys2Proof.Machine

/-- Settles O34: half of the size by the size is the tie 0.5, exactly, and the ramp is the sawtooth with its sign flipped. -/
theorem sawtoothJumpsAtHalf : Obligations.SawtoothJumpsAtHalf := by
  intro m hm hm'
  have hsaw : sawEntry m (2 * m) = .negOne := sawEntry_half hm (by omega)
  simp only [tableEntry, rampEntry, hsaw]
  decide

/-- Settles O35: the quotient 0 by the size is +0 for every size, so each entry is a closed term. -/
theorem firstEntryOfEachTable : Obligations.FirstEntryOfEachTable := by
  intro n hn hn'
  have hsaw : sawEntry 0 n = .finite false 0 0#23 := sawEntry_zero hn (by omega)
  have htriangle : triangleEntry 0 n = .finite false 0 0#23 := triangleEntry_zero hn (by omega)
  have hsquare : squareEntry 0 n = .one := squareEntry_of_lt (by omega)
  simp only [tableEntry, rampEntry, hsaw, htriangle, hsquare]
  decide

/-- Settles O37: no refusal applies, and filling a table writes the entries below its size alone. -/
theorem oscBuildBuildsTheChannel : Obligations.OscBuildBuildsTheChannel := by
  intro ch w interp defsize s o n ho hch hbuilt hn hpos hmax
  obtain rfl : n = s.buildSize defsize := hn
  refine ⟨(o.build w interp (s.buildSize defsize) s.rate).table,
    exec_oscBuild_builds ho hch hbuilt w.ofKind_bits hpos hmax, fun i hi => ?_, fun i hi => ?_⟩
  · exact (Memory.read_fill _ _ _ _).trans (if_pos hi)
  · exact (Memory.read_fill _ _ _ _).trans (if_neg (Nat.not_lt.mpr hi))

/-- Settles O38: each condition is one of the refusals of OSC_BUILD. -/
theorem oscBuildRefusesMisconfiguration : Obligations.OscBuildRefusesMisconfiguration := by
  intro ch kind interp defsize s o n ho hch hn hbad
  obtain rfl : n = s.buildSize defsize := hn
  rw [exec_oscBuild_refused ho hch (hbad.imp_right (.imp_left Waveform.ofKind_eq_none)), State.raiseError_eq]
  rfl

/-- Settles O39: the phase is accepted, and the sample is the entry at its integer part. -/
theorem oscPlayTruncates : Obligations.OscPlayTruncates := by
  intro ch s o q p w ho hch hbuilt hinterp hq hp hzero hlt hcurr
  obtain rfl : p = o.advance s.operandF64 := by rw [hp, hq]; rfl
  rw [exec_oscPlay_accepted ho hch hbuilt (OscChannel.accepts_iff.mpr ⟨hzero, hlt⟩), playSample_truncates ho hinterp hcurr]
  rfl

/-- Settles O40: the phase is accepted, and the sample is interpolated from the entry at its integer part and the next. -/
theorem oscPlayInterpolates : Obligations.OscPlayInterpolates := by
  intro ch s o q p w w' idx ho hch hbuilt hinterp hq hp hzero hlt hidx hcurr hnext hidxlt
  obtain rfl : p = o.advance s.operandF64 := by rw [hp, hq]; rfl
  obtain rfl : idx = phaseIndex (o.advance s.operandF64) := hidx
  rw [exec_oscPlay_accepted ho hch hbuilt (OscChannel.accepts_iff.mpr ⟨hzero, hlt⟩),
    playSample_interpolates ho hinterp hidxlt hcurr hnext]
  rfl

/-- Settles O41: the integer part and alpha are the quotient and the remainder of the phase's magnitude by that of 1.0. -/
theorem acceptedPhaseIndexesTheTable : Obligations.AcceptedPhaseIndexesTheTable := by
  intro p n hn hzero hlt
  obtain ⟨s, e, f, rfl, hpos, hbelow⟩ := Binary64.phase_fields hn hzero hlt
  have hindex : mag64 e f / unit64 < n := Nat.div_lt_of_lt_mul hbelow
  have halpha : ((mag64 e f % unit64 : Nat) : Int) = mag64 e f - (mag64 e f / unit64 : Nat) * unit64 := by
    have := Nat.div_add_mod' (mag64 e f) unit64
    zify at this ⊢
    omega
  have hrest : mag64 e f % unit64 < unit64 := Nat.mod_lt _ unit64_pos
  rw [Binary64.floorInt_of_nonneg hpos]
  refine ⟨Int.natCast_nonneg _, Int.ofNat_lt.mpr hindex, mag64 e f, ?_, ?_, ?_, ?_⟩
  · rw [Binary64.place_finite, hpos]
  · rw [Binary64.place_sub_floor hpos (by omega), halpha]
  · exact halpha ▸ Int.natCast_nonneg _
  · exact halpha ▸ Int.ofNat_lt.mpr hrest

/-- Settles O42: the two tests of OSC_PLAY fail in turn. -/
theorem oscPlayErrors : Obligations.OscPlayErrors := by
  intro ch s o q p ho hch hq hp
  obtain rfl : p = o.advance s.operandF64 := by rw [hp, hq]; rfl
  constructor
  · intro hbuilt
    rw [exec_oscPlay_unbuilt ho hch hbuilt, State.raiseError_eq]
    rfl
  · intro hbuilt hout
    rw [exec_oscPlay_rejected ho hch hbuilt (mt OscChannel.accepts_iff.mp hout), State.raiseError_eq]
    rfl

/-- Settles O43: what is not finite spreads through the advance to the phase, which the test then refuses. -/
theorem nonfiniteFrequencyRaisesRange : Obligations.NonfiniteFrequencyRaisesRange := by
  intro ch s o ho hch hbuilt hfreq
  rw [exec_oscPlay_rejected ho hch hbuilt (mt isFinite_of_accepts (Bool.eq_false_iff.mp hfreq)), State.raiseError_eq]
  rfl

/-- Settles O44: the advanced phase is the phase, which the invariant has in range. -/
theorem playAtFrequencyZeroKeepsThePhase : Obligations.PlayAtFrequencyZeroKeepsThePhase := by
  intro ch s o hinv ho hbuilt hoperand
  obtain ⟨-, hlength, -, -, -, hoscs, -⟩ := hinv
  obtain ⟨hch, hget⟩ := List.getElem?_eq_some_iff.mp ho
  have hsound : o.sound s.params := hoscs o (List.mem_of_getElem? ho)
  obtain ⟨t, ht⟩ : ∃ t, s.operandF64 = .finite t 0 0#52 := by
    rcases hoperand with h | h <;> rw [State.operandF64, h]
    · exact ⟨false, by decide⟩
    · exact ⟨true, by decide⟩
  have hadvance : o.advance s.operandF64 = o.phase := by rw [ht, hsound.advance_zero hbuilt]
  have haccepts : o.accepts (o.advance s.operandF64) = true := by
    rw [hadvance, hsound.accepts_phase hbuilt]
  refine ⟨_, exec_oscPlay_accepted ho (hlength ▸ hch) hbuilt haccepts, ?_, rfl, rfl⟩
  rw [hadvance]
  change s.oscs.set ch.toNat o = s.oscs
  rw [← hget, List.set_getElem_self]

/-- Settles O33: the two sides of the integer comparison. -/
theorem squareEntries : Obligations.SquareEntries := by
  intro i n
  constructor
  · intro hfirst
    rw [tableEntry, squareEntry_of_lt hfirst]
    rfl
  · intro hsecond
    rw [tableEntry, squareEntry_of_le hsecond]
    rfl

/-- Settles O36: the formulas are the model's own, once their constants are written as integers and bit patterns. -/
theorem tableFormulas : Obligations.TableFormulas := by
  intro i n x y
  rw [← twoPi_eq, ofInt_one, ofInt_two, ofInt_four]
  exact ⟨rfl, rfl, rfl, rfl⟩

/-- Settles O45: each selector's branch on a built channel, and CONFIG's on any. -/
theorem oscReadReturnsTheElement : Obligations.OscReadReturnsTheElement := by
  intro ch s o w ho hch
  refine ⟨fun hbuilt => ?_, fun hbuilt => ?_, fun hbuilt => ?_, ?_, fun hbuilt hlt hentry => ?_⟩
  · obtain ⟨hphase, -, -⟩ := exec_oscRead_element ho hch hbuilt
    exact hphase
  · obtain ⟨-, hn, -⟩ := exec_oscRead_element ho hch hbuilt
    exact hn
  · obtain ⟨-, -, hcoeff⟩ := exec_oscRead_element ho hch hbuilt
    exact hcoeff
  · rw [exec_oscRead_config ho hch, OscChannel.config_eq]
    rfl
  · have hlt : s.operandNat < o.n := hlt
    have hread : s.tableRead ch.toNat s.operandNat = w := State.tableRead_eq ho hentry
    rw [exec_oscRead_table ho hch hbuilt, if_pos hlt, hread]
    rfl

/-- Settles O46: the built test, and the bounds test of a table entry. -/
theorem oscReadErrors : Obligations.OscReadErrors := by
  intro ch s o sel ho hch
  constructor
  · intro hbuilt hsel
    rw [exec_oscRead_unbuilt ho hch hsel hbuilt, State.raiseError_eq]
    rfl
  · intro hbuilt hpast
    have hpast : ¬s.operandNat < o.n := Nat.not_lt.mpr hpast
    rw [exec_oscRead_table ho hch hbuilt, if_neg hpast, State.raiseError_eq]
    rfl

end Sys2Proof.Proofs
end

section
/-! PROOFS. Numbers that the filter turns on (spec/41_filter.md): its constants, and the clip of R161 from the rounding of `1 + |v|` and
of the quotient by it. -/

namespace Sys2Proof

open Sys2Proof.Machine

/-! ### The constants of the formulas -/

theorem ofInt_three : Binary64.ofInt 3 = .three := by decide +kernel

theorem ofInt_seventeen : Binary64.ofInt 17 = .seventeen := by decide +kernel

theorem ofInt_twenty : Binary64.ofInt 20 = .twenty := by decide +kernel

theorem one_eq_finite : Binary64.one = .finite false 1023 0#52 := by decide

/-- The magnitude code of 1.0. -/
theorem codeValue_one64 : codeValue 52 (2 ^ 52 * 1023) = unit64 := by decide +kernel

/-- The magnitude code of 2^53. -/
theorem codeValue_two_pow_53 : codeValue 52 (2 ^ 52 * 1076) = 2 ^ 53 * unit64 := by decide +kernel

/-! ### Comparisons and signs -/

namespace Binary64

/-- What is not below another datum, or is a NaN, does not pass the test for being below it. -/
theorem lt_eq_false_of_le_or_isNaN {a b : Binary64} (h : b.le a = true ∨ a.isNaN = true) : a.lt b = false := by
  rcases h with hle | hnan
  · obtain ⟨x, y, hb, ha, hxy⟩ := le_iff.mp hle
    rw [(compare_of_place ha hb).1, decide_eq_false_iff_not]
    omega
  · exact (compare_of_place_none (.inl (place_of_isNaN hnan))).1

/-- A sum of data with clear signs has a clear sign and the rounded sum of their magnitudes. -/
theorem add_finite_false (ea : Fin 2047) (fa : BitVec 52) (eb : Fin 2047) (fb : BitVec 52) :
    (finite false ea fa).add (finite false eb fb) = round false (mag64 ea fa + mag64 eb fb) 1 := by
  have hsum : signed false (mag64 ea fa) + signed false (mag64 eb fb) = (mag64 ea fa + mag64 eb fb : Nat) := rfl
  have hsign (n : Nat) : sumSign false false n = false := by simp [sumSign]
  rw [add_finite, hsum, hsign, Int.natAbs_natCast]

theorem neg_ofCode (s : Bool) (c : Nat) : (ofCode s c).neg = ofCode (!s) c := by
  unfold ofCode
  split <;> rfl

end Binary64

theorem abs_signed (s : Bool) (m : Nat) : |signed s m| = m := by
  rw [Int.abs_eq_natAbs, natAbs_signed]

/-! ### Bounds on a rounded code -/

/-- A quotient that is not above a magnitude is not rounded above it. -/
theorem roundCode_le_of_le {p num den c : Nat} (hp : 1 ≤ p) (hd : 0 < den) (h : num ≤ den * codeValue p c) :
    roundCode p num den ≤ c := by
  by_contra! hlt
  obtain ⟨hmid, -⟩ := roundCode_midpoint_le hp hd hlt
  have := Nat.mul_lt_mul_of_pos_left (codeValue_strictMono p hlt) hd
  omega

/-- A quotient that is not below a magnitude is not rounded below it. -/
theorem le_roundCode_of_le {p num den c : Nat} (hp : 1 ≤ p) (hd : 0 < den) (h : den * codeValue p c ≤ num) :
    c ≤ roundCode p num den := by
  by_contra! hlt
  obtain ⟨hmid, -⟩ := le_roundCode_midpoint hp hd hlt
  have := Nat.mul_lt_mul_of_pos_left (codeValue_strictMono p hlt) hd
  omega

/-- The gap above a magnitude is more than 2^-(p + 1) of it. -/
theorem codeValue_lt_gap (p c : Nat) :
    ∃ gap, codeValue p (c + 1) = codeValue p c + gap ∧ codeValue p c < 2 ^ (p + 1) * gap := by
  obtain ⟨k, m, rfl, hm, hk, hvalue⟩ := code_scaled p c
  refine ⟨2 ^ k, ?_, ?_⟩
  · rw [hvalue, Nat.add_assoc, codeValue_scaled (by omega) (by omega), Nat.succ_mul]
  · rw [hvalue]
    exact Nat.mul_lt_mul_of_pos_right hm (Nat.two_pow_pos k)

/-- A rounded magnitude below infinity's code is a finite datum that holds it. -/
theorem round_eq_finite_of_lt {num den : Nat} (h : roundCode 52 num den < 2 ^ 52 * 2047) (s : Bool) :
    ∃ e f, Binary64.round s num den = .finite s e f ∧ mag64 e f = codeValue 52 (roundCode 52 num den) := by
  have hexp : roundCode 52 num den / 2 ^ 52 < 2047 := Nat.div_lt_of_lt_mul h
  exact ⟨_, _, ofCode_of_lt hexp, mag64_ofCode hexp⟩

/-! ### The divisor of the clip -/

/-- The magnitude of `1 +. |v|`, for the `v` with magnitude code `c`. -/
def onePlus (c : Nat) : Nat := codeValue 52 (roundCode 52 (unit64 + codeValue 52 c) 1)

theorem codeValue_le_onePlus (c : Nat) : codeValue 52 c ≤ onePlus c :=
  (codeValue_strictMono 52).monotone (le_roundCode_of_le (by omega) Nat.one_pos (by omega))

theorem unit64_le_onePlus (c : Nat) : unit64 ≤ onePlus c := by
  have hcode : 2 ^ 52 * 1023 ≤ roundCode 52 (unit64 + codeValue 52 c) 1 :=
    le_roundCode_of_le (by omega) Nat.one_pos (by rw [codeValue_one64]; omega)
  exact codeValue_one64 ▸ (codeValue_strictMono 52).monotone hcode

theorem onePlus_pos (c : Nat) : 0 < onePlus c := lt_of_lt_of_le unit64_pos (unit64_le_onePlus c)

/-- The divisor is finite: 1 is far less than half a unit in the last place of the greatest finite magnitude. -/
theorem roundCode_onePlus_lt {c : Nat} (h : c < 2 ^ 52 * 2047) : roundCode 52 (unit64 + codeValue 52 c) 1 < 2 ^ 52 * 2047 := by
  have hle : codeValue 52 c ≤ codeValue 52 (2 ^ 52 * 2047 - 1) := (codeValue_strictMono 52).monotone (by omega)
  have hhalf : 2 * unit64 + codeValue 52 (2 ^ 52 * 2047 - 1) < codeValue 52 (2 ^ 52 * 2047 - 1 + 1) := by decide +kernel
  have := (roundCode_le_iff (p := 52) (num := unit64 + codeValue 52 c) (c := 2 ^ 52 * 2047 - 1) (by omega) Nat.one_pos
    (by norm_num)).mpr (by omega)
  omega

/-- The greatest magnitude below 2^53 is 2^53 - 1. -/
theorem unit64_add_codeValue_le {c : Nat} (h : codeValue 52 c < 2 ^ 53 * unit64) : unit64 + codeValue 52 c ≤ 2 ^ 53 * unit64 := by
  have hpred : unit64 + codeValue 52 (2 ^ 52 * 1076 - 1) = 2 ^ 53 * unit64 := by decide +kernel
  rw [← codeValue_two_pow_53, (codeValue_strictMono 52).lt_iff_lt] at h
  rw [← hpred]
  exact Nat.add_le_add_left ((codeValue_strictMono 52).monotone (Nat.le_sub_one_of_lt h)) _

/-- Below 2^53 rounding goes to a unit of at most 1. -/
theorem two_pow_roundShift_le {num : Nat} (h : num < 2 ^ 53 * unit64) : 2 ^ roundShift 52 num 1 ≤ unit64 := by
  obtain ⟨-, hshift⟩ := roundShift_spec (p := 52) (num := num) Nat.one_pos
  obtain ⟨k, hk⟩ := unit64_eq_two_pow
  have hpos := Nat.two_pow_pos k
  rw [hk] at h ⊢
  have hlt : 2 ^ roundShift 52 num 1 < 2 ^ (k + 1) := by
    rw [Nat.pow_succ]
    rcases hshift with hzero | hle
    · rw [hzero]
      omega
    · omega
  exact Nat.pow_le_pow_right (by omega) (Nat.le_of_lt_succ ((Nat.pow_lt_pow_iff_right (by omega)).mp hlt))

/-- Below 2^53 the rounding of `1 + |v|` takes off at most half of the 1; where the sum reaches 2^53, it is exact. -/
theorem two_mul_codeValue_add_unit64_le {c : Nat} (h : codeValue 52 c < 2 ^ 53 * unit64) :
    2 * codeValue 52 c + unit64 ≤ 2 * onePlus c := by
  rcases (unit64_add_codeValue_le h).lt_or_eq with hlt | heq
  · have hunit := two_pow_roundShift_le hlt
    obtain ⟨-, hhalf, -⟩ := roundCode_within_half (p := 52) (num := unit64 + codeValue 52 c) (by omega) Nat.one_pos
    rw [← onePlus] at hhalf
    omega
  · have hexact : codeValue 52 (2 ^ 52 * 1076) ≤ onePlus c :=
      (codeValue_strictMono 52).monotone (le_roundCode_of_le (by omega) Nat.one_pos (by rw [codeValue_two_pow_53]; omega))
    rw [codeValue_two_pow_53] at hexact
    omega

/-- From 2^54 on the 1 is lost in the rounding. -/
theorem onePlus_of_ge {c : Nat} (h : 2 ^ 54 * unit64 ≤ codeValue 52 c) : onePlus c = codeValue 52 c := by
  have hle : roundCode 52 (unit64 + codeValue 52 c) 1 ≤ c := by
    by_contra! hlt
    obtain ⟨hmid, -⟩ := roundCode_midpoint_le (by omega) Nat.one_pos hlt
    obtain ⟨gap, hnext, hgap⟩ := codeValue_lt_gap 52 c
    have : codeValue 52 (c + 1) ≤ _ := (codeValue_strictMono 52).monotone hlt
    omega
  exact le_antisymm ((codeValue_strictMono 52).monotone hle) (codeValue_le_onePlus c)

/-! ### The clip -/

/-- The magnitude code of `clip(v)`, for the `v` with magnitude code `c`. -/
def clipCode (c : Nat) : Nat := roundCode 52 (unit64 * codeValue 52 c) (onePlus c)

/-- The clip is not above 1, for its divisor is not below `|v|`. -/
theorem clipCode_le (c : Nat) : clipCode c ≤ 2 ^ 52 * 1023 := by
  refine roundCode_le_of_le (by omega) (onePlus_pos c) ?_
  rw [codeValue_one64, Nat.mul_comm]
  exact Nat.mul_le_mul_right _ (codeValue_le_onePlus c)

/-- Below 2^53 the quotient is nearer to the magnitude before 1 than to 1. -/
theorem clipCode_lt {c : Nat} (h : codeValue 52 c < 2 ^ 53 * unit64) : clipCode c < 2 ^ 52 * 1023 := by
  have htop := unit64_add_codeValue_le h
  have hhalf := two_mul_codeValue_add_unit64_le h
  have hmid : 2 ^ 53 * (codeValue 52 (2 ^ 52 * 1023 - 1) + codeValue 52 (2 ^ 52 * 1023 - 1 + 1)) =
      (2 ^ 54 - 1) * unit64 := by decide +kernel
  have hquot : 2 ^ 54 * codeValue 52 c < (2 ^ 54 - 1) * onePlus c := by
    have := unit64_pos
    omega
  refine Nat.lt_of_le_sub_one (by omega) ((roundCode_le_iff (by omega) (onePlus_pos c) (by norm_num)).mpr ?_)
  refine Nat.lt_of_mul_lt_mul_left (a := 2 ^ 53) ?_
  calc 2 ^ 53 * (2 * (unit64 * codeValue 52 c)) = 2 ^ 54 * codeValue 52 c * unit64 := by ring
    _ < (2 ^ 54 - 1) * onePlus c * unit64 := Nat.mul_lt_mul_of_pos_right hquot unit64_pos
    _ = onePlus c * ((2 ^ 54 - 1) * unit64) := by ring
    _ = 2 ^ 53 * (onePlus c * (codeValue 52 (2 ^ 52 * 1023 - 1) + codeValue 52 (2 ^ 52 * 1023 - 1 + 1))) := by
      rw [← hmid]; ring

theorem codeValue_clipCode_le (c : Nat) : codeValue 52 (clipCode c) ≤ unit64 :=
  codeValue_one64 ▸ (codeValue_strictMono 52).monotone (clipCode_le c)

theorem codeValue_clipCode_lt {c : Nat} (h : codeValue 52 c < 2 ^ 53 * unit64) : codeValue 52 (clipCode c) < unit64 :=
  codeValue_one64 ▸ codeValue_strictMono 52 (clipCode_lt h)

/-- From 2^54 on the clip is the quotient of a magnitude by itself. -/
theorem clipCode_of_ge {c : Nat} (h : 2 ^ 54 * unit64 ≤ codeValue 52 c) : clipCode c = 2 ^ 52 * 1023 := by
  have hpos := onePlus_pos c
  rw [onePlus_of_ge h] at hpos
  rw [clipCode, onePlus_of_ge h, ← codeValue_one64, Nat.mul_comm, roundCode_exact (by omega) hpos]

namespace Machine

variable (s : Bool) (e : Fin 2047) (f : BitVec 52)

/-- The clip of a finite datum has the sign of the datum. -/
theorem clip_finite : clip (.finite s e f) = .ofCode s (clipCode (2 ^ 52 * e.val + f.toNat)) := by
  have hlt : 2 ^ 52 * e.val + f.toNat < 2 ^ 52 * 2047 := by omega
  obtain ⟨e', f', hround, hmag⟩ := round_eq_finite_of_lt (roundCode_onePlus_lt hlt) false
  have hone : mag64 1023 0#52 = unit64 := codeValue_one64
  have hsum : Binary64.one.add (.finite false e f) = .finite false e' f' := by
    rw [one_eq_finite, Binary64.add_finite_false, hone, ← hround, mag64]
  have hden : mag64 e' f' = onePlus (2 ^ 52 * e.val + f.toNat) := hmag
  rw [clip, Binary64.abs, hsum, Binary64.div_finite _ _ _ _ _ _ (hden ▸ (onePlus_pos _).ne'), hden, Bool.bne_false]
  rfl

/-- The place of the clip of a finite datum. -/
theorem place_clip : (clip (.finite s e f)).place = some (signed s (codeValue 52 (clipCode (2 ^ 52 * e.val + f.toNat)))) := by
  have hle := clipCode_le (2 ^ 52 * e.val + f.toNat)
  have hexp : clipCode (2 ^ 52 * e.val + f.toNat) / 2 ^ 52 < 2047 := by omega
  rw [clip_finite, ofCode_of_lt hexp, Binary64.place_finite, mag64_ofCode hexp]

/-- 1.0 with a sign, from its code. -/
theorem ofCode_one64 : Binary64.ofCode s (2 ^ 52 * 1023) = if s then Binary64.one.neg else .one := by
  cases s <;> decide

theorem clip_neg : clip (Binary64.finite s e f).neg = (clip (.finite s e f)).neg := by
  rw [Binary64.neg, clip_finite, clip_finite, Binary64.neg_ofCode]

/-- The clip of what is not finite is a NaN: infinity by infinity, or on a NaN. -/
theorem isNaN_clip {v : Binary64} (h : v.isFinite = false) : (clip v).isNaN = true := by
  cases v with
  | finite => cases h
  | infinite s =>
    have hsum : Binary64.one.add (.infinite false) = .infinite false := by rw [one_eq_finite]; rfl
    rw [clip, Binary64.abs, hsum]
    rfl
  | nan s q => rfl

end Machine

end Sys2Proof
end

section
/-! PROOFS. The branches of the filter commands (spec/41_filter.md R166 to R180), each on a channel that the block holds, and what a
finite run says of its operands. -/

namespace Sys2Proof.Machine

open Sys2Proof

/-! ### What the branches turn on -/

/-- Recording a command's error is what R214 says of it. -/
theorem State.recordCommandError_eq (s : State) (c : Cause) :
    s.recordCommandError c = recorded c.code (s.cmd.setWidth 32) false false s := by
  rw [State.recordCommandError, State.recordError_eq, State.commandWord, BitVec.setWidth_eq_extractLsb' (by omega)]

/-- A run is finite only where its output, and every register of its candidate state, is. -/
theorem RunOutcome.isFinite_eq (r : RunOutcome) :
    r.isFinite = (r.out.isFinite && r.z.z0.isFinite && r.z.z1.isFinite && r.z.z2.isFinite && r.z.z3.isFinite &&
      r.z.z4.isFinite) := by
  simp only [RunOutcome.isFinite, Ladder.isFinite, Bool.and_assoc]

/-- The clip of a datum that is not finite is not finite. -/
theorem isFinite_of_clip {v : Binary64} (h : (clip v).isFinite = true) : v.isFinite = true :=
  (Binary64.div_isFinite h).1

/-- A clipped input that is finite comes of a finite sample and a finite K (R173). -/
theorem FltChannel.isFinite_of_y0 {x : FltChannel} {q : Coeffs} {input : Binary64} (h : (x.y0 q input).isFinite = true) :
    input.isFinite = true ∧ x.k.isFinite = true := by
  obtain ⟨hinput, hloop⟩ := Binary64.sub_isFinite (isFinite_of_clip h)
  exact ⟨hinput, (Binary64.mul_isFinite hloop).1⟩

/-- From a clipped input on, a finite outcome comes of that input, AH and BH finite: the output is a multiple of `y4`, which the
input enters, and the new Z[4] is the sum of multiples of BH and AH (R174, R175, R178). -/
theorem FltChannel.isFinite_of_settle {x : FltChannel} {q : Coeffs} {y0 : Binary64} (h : (x.settle q y0).isFinite = true) :
    y0.isFinite = true ∧ x.ah.isFinite = true ∧ x.bh.isFinite = true := by
  simp only [RunOutcome.isFinite_eq, Bool.and_eq_true] at h
  obtain ⟨⟨⟨⟨⟨hout, -⟩, -⟩, -⟩, -⟩, hz4⟩ := h
  obtain ⟨-, hy4⟩ := Binary64.mul_isFinite hout
  obtain ⟨hgain, -⟩ := Binary64.add_isFinite hy4
  obtain ⟨hlow, hhigh⟩ := Binary64.add_isFinite hz4
  exact ⟨(Binary64.mul_isFinite hgain).2, (Binary64.mul_isFinite hhigh).1, (Binary64.mul_isFinite hlow).1⟩

/-- A run on a sample, a K, an AH or a BH that is not finite is not finite (R179). -/
theorem FltChannel.run_isFinite_eq_false {x : FltChannel} {input : Binary64}
    (h : input.isFinite = false ∨ x.k.isFinite = false ∨ x.ah.isFinite = false ∨ x.bh.isFinite = false) :
    (x.run input).isFinite = false := by
  by_contra hrun
  obtain ⟨hy0, hah, hbh⟩ := FltChannel.isFinite_of_settle (Bool.eq_true_of_not_eq_false hrun)
  obtain ⟨hinput, hk⟩ := FltChannel.isFinite_of_y0 hy0
  simp [hinput, hk, hah, hbh] at h

/-! ### The commands on a channel that the block holds -/

section

variable {ch : BitVec 8} {s : State} {x : FltChannel} (hx : s.flts[ch.toNat]? = some x) (hch : ch.toNat < s.params.numFlt)
include hx hch

theorem State.onFlt_of_some (act : State → Nat → FltChannel → State) : s.onFlt ch act = act s ch.toNat x := by
  rw [State.onFlt_of_lt hch, State.flt_eq hx]

theorem exec_fltSetQ :
    exec (.fltSetQ ch) s = .next (s.setFlt ch.toNat
      { x with
        k := Binary64.twenty.mul s.operandF64
        amp := Binary64.one.add (Binary64.half.mul (Binary64.twenty.mul s.operandF64)) }).finish := by
  simp only [exec, execFltSetQ, State.onFlt_of_some hx hch]

theorem exec_fltSetHpf :
    exec (.fltSetHpf ch) s = .next (s.setFlt ch.toNat
      { x with
        ah := ((s.operandF64.mul .pi).sub .two).div ((s.operandF64.mul .pi).add .two)
        bh := Binary64.two.div ((s.operandF64.mul .pi).add .two) }).finish := by
  simp only [exec, execFltSetHpf, State.onFlt_of_some hx hch]

theorem exec_fltReset_clears (hk : x.k.lt .seventeen = true) :
    exec (.fltReset ch) s = .next (s.setFlt ch.toNat { x with z := .zero }).finish := by
  simp only [exec, execFltReset, State.onFlt_of_some hx hch, if_pos hk]

theorem exec_fltReset_keeps (hk : x.k.lt .seventeen = false) : exec (.fltReset ch) s = .next s.finish := by
  simp only [exec, execFltReset, State.onFlt_of_some hx hch, hk, Bool.false_eq_true, if_false]

/-- A finite run is committed (R176). -/
theorem exec_fltRun_commits (hfinite : (x.run s.operandF64).isFinite = true) :
    exec (.fltRun ch) s = .next
      { s with
        result := (x.run s.operandF64).out.toBits
        flts := s.flts.set ch.toNat { x with z := (x.run s.operandF64).z } } := by
  simp only [exec, execFltRun, State.onFlt_of_some hx hch, if_pos hfinite]
  rfl

/-- A run that is not finite trips the guard, whatever K is (R177). -/
theorem exec_fltRun_trips (hfinite : (x.run s.operandF64).isFinite = false) :
    exec (.fltRun ch) s = .next
      { recorded 5 (s.cmd.setWidth 32) false false s with
        result := 0#64
        flts := s.flts.set ch.toNat { x with z := .zero } } := by
  have hzero : Binary64.zero.toBits = 0#64 := by decide
  simp only [exec, execFltRun, State.onFlt_of_some hx hch, hfinite, Bool.false_eq_true, if_false, State.recordCommandError_eq,
    State.finishF64, hzero]
  rfl

theorem exec_fltRead (sel : FltSel) : exec (.fltRead ch sel) s = .next (s.finishF64 (x.element sel)) := by
  simp only [exec, execFltRead, State.onFlt_of_some hx hch]

end

end Sys2Proof.Machine
end

section
/-! PROOFS. The frame of the filter commands (spec/41_filter.md R160, R166 to R169, R176, R177, R180). -/

namespace Sys2Proof.Machine

open Sys2Proof

/-- A command makes `y` of the channel `x` it acts on: each parameter stays but in its own setter, and Z stays but in FLT_RESET and
FLT_RUN (R160). -/
def FltFrame (i : Instr) (x y : FltChannel) : Prop :=
  (i ≠ .fltSetQ i.ch → y.k = x.k ∧ y.amp = x.amp) ∧ (i ≠ .fltSetHpf i.ch → y.ah = x.ah ∧ y.bh = x.bh) ∧
    (i ≠ .fltSetFc i.ch → y.fc = x.fc) ∧ (i ≠ .fltReset i.ch → i ≠ .fltRun i.ch → y.z = x.z)

theorem FltFrame.refl (i : Instr) (x : FltChannel) : FltFrame i x x :=
  ⟨fun _ => ⟨rfl, rfl⟩, fun _ => ⟨rfl, rfl⟩, fun _ => rfl, fun _ _ => rfl⟩

/-- The four ways a filter command ends, as far as they bear on what it leaves unchanged. -/
inductive FltOutcome (i : Instr) (s : State) : State → Prop
  | refused (hch : s.params.numFlt ≤ i.ch.toNat) : FltOutcome i s (s.raiseError .illegal)
  | read (v : BitVec 64) : FltOutcome i s (s.setResult v)
  | write (y : FltChannel) (v : BitVec 64) (hframe : FltFrame i (s.flt i.ch.toNat) y) :
      FltOutcome i s ((s.setFlt i.ch.toNat y).setResult v)
  | guard (y : FltChannel) (v : BitVec 64) (hrun : i = .fltRun i.ch) (hframe : FltFrame i (s.flt i.ch.toNat) y) :
      FltOutcome i s (((s.setFlt i.ch.toNat y).recordCommandError .nonfinite).setResult v)

theorem exec_fltOutcome {i : Instr} {s t : State} (hi : i.unit = .flt) (h : exec i s = .next t) : FltOutcome i s t := by
  cases i with
  | fltSetQ ch =>
    obtain ⟨hch, rfl⟩ | ⟨-, k, amp, rfl⟩ := execFltSetQ_cases h
    · exact .refused hch
    · exact .write _ _ (by simp [FltFrame, Instr.ch])
  | fltSetHpf ch =>
    obtain ⟨hch, rfl⟩ | ⟨-, ah, bh, rfl⟩ := execFltSetHpf_cases h
    · exact .refused hch
    · exact .write _ _ (by simp [FltFrame, Instr.ch])
  | fltSetFc ch =>
    obtain ⟨hch, rfl⟩ | ⟨-, rfl⟩ := execFltSetFc_cases h
    · exact .refused hch
    · exact .write _ _ (by simp [FltFrame, Instr.ch])
  | fltReset ch =>
    obtain ⟨hch, rfl⟩ | rfl | ⟨-, rfl⟩ := execFltReset_cases h
    · exact .refused hch
    · exact .read _
    · exact .write _ _ (by simp [FltFrame, Instr.ch])
  | fltRun ch =>
    obtain ⟨hch, rfl⟩ | ⟨-, -, rfl⟩ | ⟨-, -, rfl⟩ := execFltRun_cases h
    · exact .refused hch
    · exact .write _ _ (by simp [FltFrame, Instr.ch])
    · exact .guard _ _ rfl (by simp [FltFrame, Instr.ch])
  | fltRead ch sel =>
    obtain ⟨hch, rfl⟩ | ⟨-, rfl⟩ := execFltRead_cases h
    · exact .refused hch
    · exact .read _
  | _ => cases hi

namespace FltOutcome

variable {i : Instr} {s t : State} (h : FltOutcome i s t)
include h

/-- No channel comes or goes. -/
theorem flts_length : t.flts.length = s.flts.length := by
  cases h with
  | refused => rfl
  | read => rfl
  | write => exact List.length_set
  | guard => exact List.length_set

/-- Of its own channel a command changes only what the rules let it. -/
theorem own {x y : FltChannel} (hx : s.flts[i.ch.toNat]? = some x) (hy : t.flts[i.ch.toNat]? = some y) : FltFrame i x y := by
  have same {a b : FltChannel} {l : List FltChannel} (ha : l[i.ch.toNat]? = some a) (hb : l[i.ch.toNat]? = some b) : a = b :=
    Option.some_injective _ (ha.symm.trans hb)
  cases h with
  | refused => exact same hx hy ▸ .refl i x
  | read => exact same hx hy ▸ .refl i x
  | write _ _ hframe => rwa [State.flt_eq hx, same (getElem?_set_of_some hx) hy] at hframe
  | guard _ _ _ hframe => rwa [State.flt_eq hx, same (getElem?_set_of_some hx) hy] at hframe

/-- On a channel that the block holds, only FLT_RUN can record an error. -/
theorem errors (hch : i.ch.toNat < s.params.numFlt) (hrun : i ≠ .fltRun i.ch) :
    t.status = s.status ∧ t.errinfo = s.errinfo := by
  cases h with
  | refused hge => exact absurd hch (Nat.not_lt.mpr hge)
  | read => exact ⟨rfl, rfl⟩
  | write => exact ⟨rfl, rfl⟩
  | guard _ _ hi => exact absurd hi hrun

end FltOutcome

end Sys2Proof.Machine
end

section
/-! PROOFS. The statements of spec/41_filter.md, settled from the facts above. -/

namespace Sys2Proof.Proofs

open Sys2Proof Sys2Proof.Machine

/-- Settles O48: the sign of a quotient of magnitudes is the only place where the sign of v enters. -/
theorem clipIsOdd : Obligations.ClipIsOdd := by
  refine ⟨fun v => ?_, clip_neg, by decide +kernel, fun v => isNaN_clip⟩
  rw [ofInt_one, clip]

/-- Settles O49, from the magnitude code of the clip; at 2^53 the sum is a tie, and goes to the even 2^53. -/
theorem clipIsBoundedAndSaturates : Obligations.ClipIsBoundedAndSaturates := by
  refine ⟨fun s e f => ⟨⟨_, place_clip s e f, ?_⟩, fun hlarge => ?_⟩, by decide +kernel, by decide +kernel⟩
  · have habs := abs_signed s (codeValue 52 (clipCode (2 ^ 52 * e.val + f.toNat)))
    obtain ⟨hlow, hhigh⟩ := abs_le.mp (habs.trans_le (Int.ofNat_le.mpr (codeValue_clipCode_le _)))
    refine ⟨hlow, hhigh, fun hsmall => abs_lt.mp (habs.trans_lt (Int.ofNat_lt.mpr (codeValue_clipCode_lt ?_)))⟩
    exact_mod_cast hsmall
  · rw [clip_finite, clipCode_of_ge (by exact_mod_cast hlarge), ofCode_one64]

/-- Settles O53: the two branches of the test of K against 17. -/
theorem fltResetClearsBelow17 : Obligations.FltResetClearsBelow17 := by
  intro ch s x hx hch
  rw [ofInt_seventeen]
  constructor
  · intro hk
    rw [exec_fltReset_clears hx hch hk]
    rfl
  · intro hk
    rw [exec_fltReset_keeps hx hch (Binary64.lt_eq_false_of_le_or_isNaN hk)]
    rfl

/-- Settles O54: the formulas are those of one run, and the guard's test is whether its outcome is finite. -/
theorem fltRunComputesOneSample : Obligations.FltRunComputesOneSample := by
  intro ch s f hf hch
  rw [ofInt_one, ofInt_two, ofInt_three, ofInt_four]
  intro two three four one x half pi a ainv a2 b b2 c g0 g t0 t1 t2 t3 s0 s' u y0 y5 y4 y3 y2 y1 z0 z1 z2 z3 z4 out
  have hrun : f.run s.operandF64 = ⟨⟨z0, z1, z2, z3, z4⟩, out⟩ := rfl
  have htest := RunOutcome.isFinite_eq (f.run s.operandF64)
  simp only [hrun] at htest
  rw [← htest]
  split
  · next hfinite => rw [exec_fltRun_commits hf hch (hrun ▸ hfinite), hrun]
  · next hfinite =>
    rw [exec_fltRun_trips hf hch (by rw [hrun]; exact Bool.eq_false_of_not_eq_true hfinite)]
    rfl

/-- Settles O55: such a run is not finite, so it trips the guard. -/
theorem nonfiniteInputOrParameterTripsTheGuard : Obligations.NonfiniteInputOrParameterTripsTheGuard := by
  intro ch s x hx hch h
  exact exec_fltRun_trips hx hch (FltChannel.run_isFinite_eq_false h)

/-- Settles O57, from the four ways a filter command ends. -/
theorem frameOfTheFilterCommands : Obligations.FrameOfTheFilterCommands := by
  intro i s t hi h
  have houtcome := exec_fltOutcome hi h
  obtain ⟨hparams, hoperand, hcmd, hrate, hpending, hdata⟩ := exec_unchanged h
  refine ⟨⟨hparams, hoperand, hcmd, hrate, exec_flt_oscs hi h, hpending, hdata⟩,
    ⟨houtcome.flts_length, fun c => exec_flt_other hi h⟩, fun x y => houtcome.own, houtcome.errors⟩

/-- Settles O51: 20, 1 and 0.5 are the model's constants. -/
theorem fltSetQSetsTheGains : Obligations.FltSetQSetsTheGains := by
  intro ch s x hx hch k
  rw [ofInt_one, exec_fltSetQ hx hch, ← ofInt_twenty]
  rfl

/-- Settles O52: 2 and PI64 are the model's constants. -/
theorem fltSetHpfSetsTheHighpass : Obligations.FltSetHpfSetsTheHighpass := by
  intro ch s x hx hch kh
  rw [ofInt_two, exec_fltSetHpf hx hch]
  rfl

/-- Settles O56: the list pairs each selector with the element it returns. -/
theorem fltReadReturnsTheElement : Obligations.FltReadReturnsTheElement := by
  intro ch s x hx hch sel value hmem
  obtain ⟨sel', -, hpair⟩ : ∃ sel', sel' ∈ [.z0, .z1, .z2, .z3, .z4, .k, .amp, .ah, .bh, .fc] ∧
      (sel', x.element sel') = (sel, value) := List.mem_map.mp hmem
  cases hpair
  rw [exec_fltRead hx hch]
  rfl

end Sys2Proof.Proofs
end

section
/-! PROOFS. The statements of spec/60_exceptions.md, settled from the facts above. -/

namespace Sys2Proof.Proofs

open Sys2Proof Sys2Proof.Machine

/-- Settles O13: the value decodes to no command, so the write stores it and raises ILLEGAL, whose word is the value's low half. -/
theorem illegalCommandValueRaisesIllegal : Obligations.IllegalCommandValueRaisesIllegal := by
  intro s v rest hp hillegal
  have hrun : step s = runCommand v (s.begin rest) := step_write (by omega) hp
  obtain ⟨e, he⟩ : ∃ e, decode (s.begin rest).params v = .error e := (rejectedCommandValues s.params v).mpr hillegal
  rw [hrun, runCommand, he, State.raiseError, State.recordCommandError, State.recordError_eq]
  rfl

/-- Settles O15: each pair of the list is a cause with its code, and what is recorded and raised is what R214 and R215 say. -/
theorem raisingAnErrorIsPrecise : Obligations.RaisingAnErrorIsPrecise := by
  intro s c code hmem
  have codes : ∀ pair ∈ [(.illegal, 1), (.cfg, 2), (.unbuilt, 3), (.range, 4), (.nonfinite, 5), (.bus, 6)],
      Cause.code pair.1 = pair.2 := by decide
  obtain rfl : c.code = code := codes (c, code) hmem
  exact ⟨s.recordError_eq c, s.recordError_eq c s.commandWord false false, s.raiseError_eq c⟩

end Sys2Proof.Proofs
end

section
/-! PROOFS. The statements of spec/70_reset_and_hazards.md, settled from the facts above: what a channel holds after reset (R251),
and the state that the reset input leaves (R250). -/

namespace Sys2Proof

/-- The `+0.0` of R251 has all its bits clear. -/
theorem Binary64.toBits_zero : Binary64.zero.toBits = 0#64 := by decide

end Sys2Proof

namespace Sys2Proof.Machine

open Sys2Proof

/-- A reset input that comes next leaves the state after reset, with the host's later accesses still to come. -/
theorem step_reset {s : State} {rest : List BusEvent} (hp : s.pending = .reset :: rest) :
    step s = .next ((State.resetWith s.params).setPending rest) :=
  step_cons hp

/-- Every oscillator channel of the state after reset is a reset one. -/
theorem eq_reset_of_mem_resetWith_oscs {p : Params} {o : OscChannel} (ho : o ∈ (State.resetWith p).oscs) : o = .reset :=
  List.eq_of_mem_replicate ho

/-- Every filter channel of the state after reset is a reset one. -/
theorem eq_reset_of_mem_resetWith_flts {p : Params} {x : FltChannel} (hx : x ∈ (State.resetWith p).flts) : x = .reset :=
  List.eq_of_mem_replicate hx

/-- The elements of a reset oscillator channel (R251). -/
theorem OscChannel.reset_elements :
    OscChannel.reset.built = false ∧ OscChannel.reset.kind = .sine ∧ OscChannel.reset.interp = false ∧
      OscChannel.reset.n = 0 ∧ OscChannel.reset.coeff.toBits = 0#64 ∧ OscChannel.reset.phase.toBits = 0#64 :=
  ⟨rfl, rfl, rfl, rfl, Binary64.toBits_zero, Binary64.toBits_zero⟩

/-- The elements of a reset filter channel (R251): +0.0 in the ladder and K, and the bit patterns of AMP, AH, BH and FC. -/
theorem FltChannel.reset_elements :
    FltChannel.reset.z.z0.toBits = 0#64 ∧ FltChannel.reset.z.z1.toBits = 0#64 ∧ FltChannel.reset.z.z2.toBits = 0#64 ∧
      FltChannel.reset.z.z3.toBits = 0#64 ∧ FltChannel.reset.z.z4.toBits = 0#64 ∧ FltChannel.reset.k.toBits = 0#64 ∧
      FltChannel.reset.amp.toBits = 0x3FF0000000000000#64 ∧ FltChannel.reset.ah.toBits = 0xBFBEC550F5B2E782#64 ∧
      FltChannel.reset.bh.toBits = 0x3FE1EC550F5B2E78#64 ∧ FltChannel.reset.fc.toBits = 0x3FD0000000000000#64 := by
  simp only [FltChannel.reset, Ladder.zero, Binary64.toBits_zero, Binary64.toBits_ofBits, and_self]

end Sys2Proof.Machine

namespace Sys2Proof.Proofs

open Sys2Proof Sys2Proof.Machine

/-- Settles O29: the reset input leaves the registers of `State.resetWith` and nothing but reset channels. -/
theorem resetRestoresEveryElement : Obligations.ResetRestoresEveryElement := by
  intro s rest hp
  refine ⟨_, step_reset hp, rfl, rfl, rfl, rfl, rfl, rfl, rfl, rfl, List.length_replicate, List.length_replicate,
    fun o ho => ?_, fun x hx => ?_⟩
  · rw [eq_reset_of_mem_resetWith_oscs ho]
    exact OscChannel.reset_elements
  · rw [eq_reset_of_mem_resetWith_flts hx]
    exact FltChannel.reset_elements

/-- Settles O30, by the lemma from which the reset step keeps the invariant. -/
theorem resetMeetsTheInvariant : Obligations.ResetMeetsTheInvariant := fun _ => resetWith_inv

end Sys2Proof.Proofs
end
